-- ==== Sys2Proof/Word.lean ====
section
/-! DEFINITION. The widths of the machine: words, immediates, register indices, shift amounts (R6, R65). -/

namespace Sys2Proof

/-- A Machine Word and a register's contents: 32 bits (R6, R20). -/
abbrev Word := BitVec 32

/-- An immediate or branch-offset field: 16 bits (R6, R61). -/
abbrev Imm16 := BitVec 16

/-- A register index: "register index ∈ [0,31]" (R20). -/
abbrev RegIdx := Fin 32

/-- A shift amount: an unsigned constant 0..31 (R65). -/
abbrev Shamt := Fin 32

end Sys2Proof
end

