-- ==== Sys2Proof/Machine/Operands.lean ====
section
/-! DEFINITION. The operand forms: the sign-extended immediate of all four I-type-like instructions (R66), and the ALU's results (R13). -/

namespace Sys2Proof.Machine

/-- `sext_32(v)`: bit 15 copied into bits 31:16 (R11, R66, R104). `andi` uses it as well as `addi` (R132). -/
def sext32 (v : Imm16) : Word := v.signExtend 32

/-- `signed_16(v)`: the signed number of the 16-bit pattern, -32768..32767 (R11, R66). -/
def signed16 (v : Imm16) : Int := v.toInt

/-- `a + b` on 32 bits: the sum modulo 2^32 (R11, R122, R130; D2, log 2). -/
def sum32 (a b : Word) : Word := a + b

/-- `a << n`, `0 <= n <= 31`: zeros enter at bit 0, bits past bit 31 are lost (R11, R124; D3, log 3). -/
def shiftLeft32 (a : Word) (n : Shamt) : Word := a <<< n.val

/-- `a >>u n`, `0 <= n <= 31`: zeros enter at bit 31 (R11, R126). -/
def shiftRight32 (a : Word) (n : Shamt) : Word := a >>> n.val

/-- `a & b`: bitwise AND (R11, R132). -/
def and32 (a b : Word) : Word := a &&& b

end Sys2Proof.Machine
end

