-- ==== Sys2Proof/Machine/Flags.lean ====
section
/-! DEFINITION. The hardware has no flags and no condition codes (R27), so no instruction sets or reads one. What stands in their place is here: the branches compare two registers directly, and the comparison selects the branch delta (R139). -/

namespace Sys2Proof.Machine

/-- The branch delta (R139): the signed offset, in instructions, if the branch is taken, else 0. -/
def branchDelta (taken : Bool) (off : Imm16) : Int := if taken then signed16 off else 0

/-- `b == a` on all 32 bits (R140). -/
def equal32 (b a : Word) : Bool := b == a

/-- `b != a` on all 32 bits (R142). -/
def differ32 (b a : Word) : Bool := b != a

end Sys2Proof.Machine
end

