-- ==== Sys2Proof/Syntax.lean ====
section
/-! DEFINITION. The eight instructions, one constructor per row of the opcode table, each with exactly the fields its class uses (R105, R107); and the decoder's nine classes (R102). -/

namespace Sys2Proof

/-- An instruction. The operands stand in the assembler's order (R77). -/
inductive Instr where
  /-- R120 -/
  | nop
  /-- R122 -/
  | add (rd rs rt : RegIdx)
  /-- R124 -/
  | sll (rd rt : RegIdx) (shamt : Shamt)
  /-- R126 -/
  | srl (rd rt : RegIdx) (shamt : Shamt)
  /-- R130 -/
  | addi (rt rs : RegIdx) (imm : Imm16)
  /-- R132 -/
  | andi (rt rs : RegIdx) (imm : Imm16)
  /-- R140 -/
  | beq (rs rt : RegIdx) (off : Imm16)
  /-- R142 -/
  | bne (rs rt : RegIdx) (off : Imm16)
  deriving DecidableEq, Repr

/-- The decoder's verdict on a word (R102): the eight kinds and `illegal`. -/
inductive Class where
  | nop | add | sll | srl | addi | andi | beq | bne | illegal
  deriving DecidableEq, Repr

/-- The class an instruction belongs to. -/
def Instr.cls : Instr → Class
  | .nop => .nop
  | .add _ _ _ => .add
  | .sll _ _ _ => .sll
  | .srl _ _ _ => .srl
  | .addi _ _ _ => .addi
  | .andi _ _ _ => .andi
  | .beq _ _ _ => .beq
  | .bne _ _ _ => .bne

end Sys2Proof
end

