-- ==== Sys2Proof/WellFormed.lean ====
section
/-! DEFINITION. Which instructions have a canonical word of their own. The field types already bound every register index, shift amount and immediate (R65, R66, R110); what is left is the one collision of the encoding (R91). -/

namespace Sys2Proof

/-- `sll $zero $zero 0` has the zero word as its canonical word, and the zero word is `nop` (R64, R73, R91).
Every other instruction has a canonical word that no other instruction has. -/
def Instr.WellFormed : Instr → Bool
  | .nop => true
  | .add _ _ _ => true
  | .sll rd rt shamt => !(rd == 0 && rt == 0 && shamt == 0)
  | .srl _ _ _ => true
  | .addi _ _ _ => true
  | .andi _ _ _ => true
  | .beq _ _ _ => true
  | .bne _ _ _ => true

end Sys2Proof
end

