-- ==== Sys2Proof/Decode.lean ====
section
/-! DEFINITION. The instruction decoder (`spec/40_decoder.md`), total on every word, rejecting by name; the opcode table (R69); the encoder (R70); canonical words. -/

namespace Sys2Proof

/-! ## Fields (R61, R104) -/

/-- `w[31:26]`. -/
def opcodeOf (w : Word) : BitVec 6 := w.extractLsb' 26 6

/-- `w[25:21]`, an unsigned register index. -/
def rsOf (w : Word) : RegIdx := (w.extractLsb' 21 5).toFin

/-- `w[20:16]`, an unsigned register index. -/
def rtOf (w : Word) : RegIdx := (w.extractLsb' 16 5).toFin

/-- `w[15:11]`, an unsigned register index. -/
def rdOf (w : Word) : RegIdx := (w.extractLsb' 11 5).toFin

/-- `w[10:6]`, an unsigned shift amount. -/
def shamtOf (w : Word) : Shamt := (w.extractLsb' 6 5).toFin

/-- `w[5:0]`. -/
def functOf (w : Word) : BitVec 6 := w.extractLsb' 0 6

/-- `w[15:0]`. -/
def imm16Of (w : Word) : Imm16 := w.extractLsb' 0 16

/-! ## Classification (R101, R102, R103) -/

/-- The class of a word, tested in the order of R102: the whole word against zero first, then `opcode`,
then, for opcode 0 only, `funct`. -/
def classify (w : Word) : Class :=
  if w = 0#32 then .nop
  else if opcodeOf w = 0x00#6 then
    if functOf w = 0x20#6 then .add
    else if functOf w = 0x00#6 then .sll
    else if functOf w = 0x02#6 then .srl
    else .illegal
  else if opcodeOf w = 0x08#6 then .addi
  else if opcodeOf w = 0x0C#6 then .andi
  else if opcodeOf w = 0x04#6 then .beq
  else if opcodeOf w = 0x05#6 then .bne
  else .illegal

/-- Why a word is outside the instruction set (R72). -/
inductive DecodeError where
  /-- Its opcode is none of the five assigned values (R68). -/
  | unassignedOpcode (opcode : BitVec 6)
  /-- Its opcode is 0 and its funct is none of the three assigned values (R69). -/
  | unassignedFunct (funct : BitVec 6)
  deriving DecidableEq, Repr

/-- The name under which an illegal word is rejected. -/
def rejection (w : Word) : DecodeError :=
  if opcodeOf w = 0x00#6 then .unassignedFunct (functOf w) else .unassignedOpcode (opcodeOf w)

/-- The decoder (R100, R105, R108): a pure function of the word, total, with exactly the fields the class uses. -/
def decode (w : Word) : Except DecodeError Instr :=
  match classify w with
  | .nop => .ok .nop
  | .add => .ok (.add (rdOf w) (rsOf w) (rtOf w))
  | .sll => .ok (.sll (rdOf w) (rtOf w) (shamtOf w))
  | .srl => .ok (.srl (rdOf w) (rtOf w) (shamtOf w))
  | .addi => .ok (.addi (rtOf w) (rsOf w) (imm16Of w))
  | .andi => .ok (.andi (rtOf w) (rsOf w) (imm16Of w))
  | .beq => .ok (.beq (rsOf w) (rtOf w) (imm16Of w))
  | .bne => .ok (.bne (rsOf w) (rtOf w) (imm16Of w))
  | .illegal => .error (rejection w)

/-- The word whose `nbits` low bits are those of `w`; every bit above `nbits` is 0. -/
def tableWord (nbits w : Nat) : Word := BitVec.ofNat 32 (w % 2 ^ nbits)

/-- The instruction the decoder reads from an opcode-table row's bits, bit 0 least significant (R11; log 21).
An instruction is one word of 32 bits (R60). -/
def decodeTableWord (nbits w : Nat) : Option Instr :=
  match decode (tableWord nbits w) with
  | .ok i => some i
  | .error _ => none

/-! ## The opcode table (R69) -/

/-- One row of R69's table: mask and match over all 32 bits. -/
structure OpcodeRow where
  cls : Class
  mask : Word
  pattern : Word
  deriving DecidableEq, Repr

/-- R69's table in the order of its `priority` column; the first match wins. -/
def opcodeTable : List OpcodeRow :=
  [ ⟨.nop,  0xFFFFFFFF#32, 0x00000000#32⟩,
    ⟨.add,  0xFC00003F#32, 0x00000020#32⟩,
    ⟨.sll,  0xFC00003F#32, 0x00000000#32⟩,
    ⟨.srl,  0xFC00003F#32, 0x00000002#32⟩,
    ⟨.addi, 0xFC000000#32, 0x20000000#32⟩,
    ⟨.andi, 0xFC000000#32, 0x30000000#32⟩,
    ⟨.beq,  0xFC000000#32, 0x10000000#32⟩,
    ⟨.bne,  0xFC000000#32, 0x14000000#32⟩ ]

/-- Whether a word matches a row. -/
def OpcodeRow.matchesWord (r : OpcodeRow) (w : Word) : Bool := w &&& r.mask == r.pattern

/-- The class the table gives a word: its first matching row's, else `illegal` (R69, R72). -/
def tableClass (w : Word) : Class :=
  match opcodeTable.find? (fun r => r.matchesWord w) with
  | some r => r.cls
  | none => .illegal

/-! ## The encoder (R70) -/

/-- The word of a register index or shift amount, unshifted. -/
def fieldWord (i : Fin 32) : Word := BitVec.ofNat 32 i.val

/-- The R-type-like layout of R62 with opcode 0. -/
def packR (rs rt rd shamt : Fin 32) (funct : Word) : Word :=
  fieldWord rs <<< 21 ||| fieldWord rt <<< 16 ||| fieldWord rd <<< 11 ||| fieldWord shamt <<< 6 ||| funct

/-- The I-type-like layout of R63, the opcode already in place. -/
def packI (opcode : Word) (rs rt : RegIdx) (imm : Imm16) : Word :=
  opcode ||| fieldWord rs <<< 21 ||| fieldWord rt <<< 16 ||| imm.setWidth 32

/-- The canonical word of an instruction (R70): only the fields the table names are filled, every other bit is 0. -/
def encode : Instr → Word
  | .nop => 0x00000000#32
  | .add rd rs rt => packR rs rt rd 0 0x20#32
  | .sll rd rt shamt => packR 0 rt rd shamt 0x00#32
  | .srl rd rt shamt => packR 0 rt rd shamt 0x02#32
  | .addi rt rs imm => packI 0x20000000#32 rs rt imm
  | .andi rt rs imm => packI 0x30000000#32 rs rt imm
  | .beq rs rt off => packI 0x10000000#32 rs rt off
  | .bne rs rt off => packI 0x14000000#32 rs rt off

/-- The 16-bit pattern of a signed immediate or offset, `v mod 65536` (R67). -/
def encodeImm (v : Int) : Imm16 := BitVec.ofInt 16 v

/-- Whether the Instruction Encoder can emit the word (R70): the bits its class ignores are 0. -/
def isCanonical (w : Word) : Bool :=
  match classify w with
  | .nop => true
  | .add => shamtOf w == 0
  | .sll => rsOf w == 0
  | .srl => rsOf w == 0
  | .addi => true
  | .andi => true
  | .beq => true
  | .bne => true
  | .illegal => false

/-- Whether the word is one of the eight instructions (R166, D16). -/
def isLegal (w : Word) : Bool := classify w != .illegal

end Sys2Proof
end

