-- ==== Sys2Proof/Config.lean ====
section
/-! DEFINITION. The parameters the spec leaves open (R7). They are fields of a value that each reader takes as an argument, so every statement quantifies over them; the step reads none. -/

namespace Sys2Proof

/-- The open parameters of R7. -/
structure Config where
  /-- `BASE_ADDRESS`: the address the derived pc gives to index 0 (D7). -/
  baseAddress : Word
  /-- `PROG_CAPACITY`: the largest admitted program length (D8). -/
  progCapacity : Nat
  /-- `INDEX_WIDTH`: the width of a hardware build's cursor register (D6). -/
  indexWidth : Nat
  /-- `MAX_LINE_LENGTH`: assembler only (D8). -/
  maxLineLength : Nat
  /-- `MAX_TOKEN_LENGTH`: assembler only (D8). -/
  maxTokenLength : Nat
  deriving DecidableEq, Repr

/-- The width condition of a hardware cursor: `2^(INDEX_WIDTH-1) > PROG_CAPACITY + 32767` (R7, D6). -/
abbrev Config.IndexWidthSuffices (cfg : Config) : Prop :=
  cfg.progCapacity + 32767 < 2 ^ (cfg.indexWidth - 1)

end Sys2Proof
end

