-- ==== Sys2Proof/Machine/State.lean ====
section
/-! DEFINITION. The machine's state as plain data (`spec/10_state.md`), the ways a step can stop, and the state after reset. -/

namespace Sys2Proof.Machine

/-- Why the machine stops with a fault. -/
inductive Fault where
  /-- Raised by the step on a fetched word of class ILLEGAL, with the cursor and the word (R166).
  Safe (log 4): the spec gives the word no effect, and nothing can be proved of what follows. -/
  | illegalWord (index : Int) (w : Word)
  deriving DecidableEq, Repr

/-- Why a step has no next state although nothing is wrong with the machine. -/
inductive Refusal where
  /-- An instruction that has no meaning yet; raised by a rejected arm of `exec` only. Safe. No arm is rejected. -/
  | notModelled (mnemonic : String)
  /-- Raised by the step in a terminal state (`index < 0` or `index >= N`): the run is over, normally, and the
  state has no step (R150). Safe (log 7). -/
  | runEnded
  deriving DecidableEq, Repr

/-- Everything the spec gives the machine (R30, R33) and the image its step fetches from (R26; log 9). -/
structure State where
  /-- The general registers `x[0] .. x[31]` (R20). -/
  regs : Vector Word 32
  /-- The cursor: the index of the word the next step fetches, a signed integer (R23, R24). -/
  index : Int
  /-- The Program Image `P[0..N-1]`, read-only during a run (R26). -/
  image : List Word
  /-- The fault mark (R33, R166, R180): set when the run has faulted. -/
  faultMark : Option Fault
  deriving DecidableEq, Repr

/-- The state after reset: registers and cursor zero, fault mark clear (R31, R180).
DESIGN CHOICE (log 11): no program is loaded. -/
def State.reset : State :=
  { regs := Vector.replicate 32 0
    index := 0
    image := []
    faultMark := none }

end Sys2Proof.Machine
end

