-- ==== Sys2Proof/Machine/Ops.lean ====
section
/-! DEFINITION. The operations every meaning is made of: register access, the fetch, the end of a step, the fault, and what the host does before and after a run. The hardware has no exceptions, no trap entry and no trap return (R160, R163), so no operation takes or leaves one; its one non-normal outcome is `raiseIllegal` (R166). -/

namespace Sys2Proof.Machine

/-- What one step answers. -/
abbrev StepResult := Host.Outcome State Fault Refusal

/-! ## Registers (R20, R22) -/

/-- Read of `x[r]`. -/
def State.readReg (s : State) (r : RegIdx) : Word := s.regs[r]

/-- `x[r] <- v`. Register 0 is written like any other (R22, D1; log 1). -/
def State.writeReg (s : State) (r : RegIdx) (v : Word) : State :=
  { s with regs := s.regs.set r v }

/-- The register write of a step: none or one (R145). -/
def State.applyWrite (s : State) : Option (RegIdx × Word) → State
  | none => s
  | some (r, v) => s.writeReg r v

/-! ## The cursor and the image -/

/-- `running = (0 <= index < N)` (R156): the state is not terminal (R150). -/
abbrev State.Running (s : State) : Prop := 0 ≤ s.index ∧ s.index < s.image.length

/-- A terminal state: `index < 0` or `index >= N` (R150, C2). -/
abbrev State.Terminal (s : State) : Prop := s.index < 0 ∨ (s.image.length : Int) ≤ s.index

/-- The fetch `P[index]` (R144); no word where `index` is outside `0..N-1` (R46). -/
def State.fetch (s : State) : Option Word :=
  if 0 ≤ s.index then s.image[s.index.toNat]? else none

/-- `index <- index + 1 + delta` (R146). -/
def State.advance (s : State) (delta : Int) : State := { s with index := s.index + 1 + delta }

/-- The derived program counter `(BASE_ADDRESS + 4*index) mod 2^32` (R25, D9; log 13). -/
def pc (cfg : Config) (s : State) : Word := cfg.baseAddress + BitVec.ofInt 32 (4 * s.index)

/-! ## The end of a step -/

/-- A legal instruction's step completes: at most one register write, then the cursor advances (R145, R146).
The operands were read in the state before the step (R12, R186; log 22). -/
def retire (write : Option (RegIdx × Word)) (delta : Int) (s : State) : StepResult :=
  .next ((s.applyWrite write).advance delta)

/-- The fault of R166: no register is written and the cursor is not advanced. -/
def raiseIllegal (w : Word) (s : State) : StepResult := .fault (.illegalWord s.index w)

/-- The faulted state (R166): only the fault mark changes. -/
def State.latchFault (s : State) (f : Fault) : State := { s with faultMark := some f }

/-! ## What the host does (R9, R181, R183) -/

/-- The `reset` input (R181, D14): registers and cursor 0, fault mark clear, image untouched. -/
def State.resetInput (s : State) : State := { State.reset with image := s.image }

/-- The launch state of a run of a complete image (R151, R183; log 11). -/
def State.load (image : List Word) : State := { State.reset with image := image }

/-- The image with `w` at position `k`; a shorter image is first extended to `k` words. -/
def placeWord (image : List Word) (k : Nat) (w : Word) : List Word :=
  if k < image.length then image.set k w
  else image ++ List.replicate (k - image.length) 0 ++ [w]

/-- `s` with `w` where its next step fetches (log 12): at the cursor, or at index 0 where the cursor is negative;
the fault mark is cleared, since a faulted state fetches nothing. -/
def State.placeAtFetch (s : State) (w : Word) : State :=
  { s with
    image := placeWord s.image s.index.toNat w
    index := (s.index.toNat : Int)
    faultMark := none }

end Sys2Proof.Machine
end

