-- ==== Sys2Proof/Machine/Branch.lean ====
section
/-! DEFINITION. The branches `beq` and `bne` (`spec/43_branch_pc_step.md`). The offset counts instructions from the one after the branch; the target is not checked (R149); there is no delay slot (R148). -/

namespace Sys2Proof.Machine

/-- R140: `delta = signed_16(off)` if `x[rt] == x[rs]`, else 0; no register is written. -/
def execBeq (rs rt : RegIdx) (off : Imm16) (s : State) : StepResult :=
  retire none (branchDelta (equal32 (s.readReg rt) (s.readReg rs)) off) s

/-- R142: `delta = signed_16(off)` if `x[rt] != x[rs]`, else 0; no register is written. -/
def execBne (rs rt : RegIdx) (off : Imm16) (s : State) : StepResult :=
  retire none (branchDelta (differ32 (s.readReg rt) (s.readReg rs)) off) s

end Sys2Proof.Machine
end

