-- ==== Sys2Proof/Machine/IType.lean ====
section
/-! DEFINITION. The immediate ALU instructions `addi` and `andi` (`spec/42_itype_alu.md`). The destination is the `rt` field (R133). -/

namespace Sys2Proof.Machine

/-- R130: `x[rt] <- x[rs] + sext_32(imm)`. -/
def execAddi (rt rs : RegIdx) (imm : Imm16) (s : State) : StepResult :=
  retire (some (rt, sum32 (s.readReg rs) (sext32 imm))) 0 s

/-- R132: `x[rt] <- x[rs] & sext_32(imm)`, the immediate sign-extended, not zero-extended. -/
def execAndi (rt rs : RegIdx) (imm : Imm16) (s : State) : StepResult :=
  retire (some (rt, and32 (s.readReg rs) (sext32 imm))) 0 s

end Sys2Proof.Machine
end

