-- ==== Sys2Proof/Machine/RType.lean ====
section
/-! DEFINITION. `nop` and the R-type-like instructions: `add`, `sll`, `srl` (`spec/41_nop_rtype.md`). -/

namespace Sys2Proof.Machine

/-- R120: no register is read or written; delta 0. -/
def execNop (s : State) : StepResult := retire none 0 s

/-- R122: `x[rd] <- x[rt] + x[rs]`, in the source's operand order (R123). -/
def execAdd (rd rs rt : RegIdx) (s : State) : StepResult :=
  retire (some (rd, sum32 (s.readReg rt) (s.readReg rs))) 0 s

/-- R124: `x[rd] <- x[rt] << shamt`. -/
def execSll (rd rt : RegIdx) (shamt : Shamt) (s : State) : StepResult :=
  retire (some (rd, shiftLeft32 (s.readReg rt) shamt)) 0 s

/-- R126: `x[rd] <- x[rt] >>u shamt`. -/
def execSrl (rd rt : RegIdx) (shamt : Shamt) (s : State) : StepResult :=
  retire (some (rd, shiftRight32 (s.readReg rt) shamt)) 0 s

end Sys2Proof.Machine
end

