-- ==== Sys2Proof/Machine/Engine.lean ====
section
/-! DEFINITION. The Execution Engine between fetch and the end of the step (R144, R145, R147). -/

namespace Sys2Proof.Machine

/-- A fetched word runs: decoded, then executed, or the fault of R166. -/
def executeWord (w : Word) (s : State) : StepResult :=
  match decode w with
  | .ok i => exec i s
  | .error _ => raiseIllegal w s

/-- One step of a machine that has not faulted: fetch and execute; a terminal state has no step (R150; log 7). -/
def fetchAndExecute (s : State) : StepResult :=
  match s.fetch with
  | some w => executeWord w s
  | none => .refused .runEnded

end Sys2Proof.Machine
end

