-- ==== Sys2Proof/Machine/Step.lean ====
section
/-! DEFINITION. One step of the machine (R147), and the placing of a word where the step fetches. -/

namespace Sys2Proof.Machine

/-- R147. A faulted state has no further step (R166): it answers the fault it is marked with (log 8). -/
def step (s : State) : Host.Outcome State Fault Refusal :=
  match s.faultMark with
  | some f => .fault f
  | none => fetchAndExecute s

/-- `s` with the word of an opcode-table row's bits where the next step fetches (log 11, log 12). -/
def State.withFetchWord (s : State) (nbits w : Nat) : State := s.placeAtFetch (tableWord nbits w)

end Sys2Proof.Machine
end

