-- ==== Sys2Proof/Machine/Run.lean ====
section
/-! DEFINITION. The run (`spec/43_branch_pc_step.md` section 3): the total machine that holds its state once it has ended or faulted, its outcome, the observation and the trace content. -/

namespace Sys2Proof.Machine

/-- One clock of the machine. A terminal state and a faulted state hold (R156, R166); the step that faults latches
the fault mark (log 8). -/
def tick (s : State) : State :=
  match step s with
  | .next t => t
  | .fault f => s.latchFault f
  | .refused _ => s

/-- `k` clocks: the executor under fuel of R152. -/
def run : Nat → State → State
  | 0, s => s
  | k + 1, s => run k (tick s)

/-- Where a run stands (R169). -/
inductive Status where
  /-- It has not ended. -/
  | running
  /-- It has reached a terminal state: the only good end. -/
  | finished
  /-- It has faulted. -/
  | faulted (f : Fault)
  deriving DecidableEq, Repr

/-- The status of a state: faulted if it is marked, else finished if it is terminal (R150, R166, R169). -/
def status (s : State) : Status :=
  match s.faultMark with
  | some f => .faulted f
  | none => if s.Running then .running else .finished

/-- What is observed of a finished run (R154, D17). -/
structure Observation where
  regs : Vector Word 32
  index : Int
  pc : Word
  deriving DecidableEq, Repr

/-- The dump of the 32 registers and the final program counter, with the cursor itself (R154). -/
def observe (cfg : Config) (s : State) : Observation := ⟨s.regs, s.index, pc cfg s⟩

/-- The content of one line of the decode trace (R154); its format is out of scope (R5). -/
structure TraceEntry where
  index : Int
  cls : Class
  written : Option (RegIdx × Word)
  deriving DecidableEq, Repr

/-- The register write an instruction performs in a state (R22's table, R127, R133). -/
def writeOf (s : State) : Instr → Option (RegIdx × Word)
  | .nop => none
  | .add rd rs rt => some (rd, sum32 (s.readReg rt) (s.readReg rs))
  | .sll rd rt shamt => some (rd, shiftLeft32 (s.readReg rt) shamt)
  | .srl rd rt shamt => some (rd, shiftRight32 (s.readReg rt) shamt)
  | .addi rt rs imm => some (rt, sum32 (s.readReg rs) (sext32 imm))
  | .andi rt rs imm => some (rt, and32 (s.readReg rs) (sext32 imm))
  | .beq _ _ _ => none
  | .bne _ _ _ => none

/-- The branch delta an instruction returns in a state (R139, R145). -/
def deltaOf (s : State) : Instr → Int
  | .nop => 0
  | .add _ _ _ => 0
  | .sll _ _ _ => 0
  | .srl _ _ _ => 0
  | .addi _ _ _ => 0
  | .andi _ _ _ => 0
  | .beq rs rt off => branchDelta (equal32 (s.readReg rt) (s.readReg rs)) off
  | .bne rs rt off => branchDelta (differ32 (s.readReg rt) (s.readReg rs)) off

/-- The trace entry of the step taken from a state, if it takes one. -/
def traceEntry (s : State) : Option TraceEntry :=
  match s.faultMark, s.fetch with
  | none, some w =>
    match decode w with
    | .ok i => some ⟨s.index, i.cls, writeOf s i⟩
    | .error _ => none
  | _, _ => none

/-- The trace of `k` clocks, oldest first. -/
def trace : Nat → State → List TraceEntry
  | 0, _ => []
  | k + 1, s => (traceEntry s).toList ++ trace k (tick s)

end Sys2Proof.Machine
end

