-- ==== Sys2Proof/Machine/Assembler.lean ====
section
/-! DEFINITION. The two-pass assembler, the only producer of Program Images (R4), as far as the spec settles it (`spec/30_encoding.md` R75 to R92): Label Resolver, Instruction Encoder, errors, listing. Splitting text into tokens is an external step (R5): a program here is a list of tokenized lines. -/

namespace Sys2Proof.Machine

/-! ## Source lines and errors -/

/-- A token of a source line; a missing operand is the empty token (R75). -/
abbrev Token := String

/-- A tokenized line: "(label, mnemonic, arg1, arg2, arg3)" (R75). -/
structure SourceLine where
  label : Option Token
  mnemonic : Token
  arg1 : Token
  arg2 : Token
  arg3 : Token
  deriving DecidableEq, Repr

/-- What the external tokenizer hands over for one source line (log 20). -/
inductive InputLine where
  /-- The line did not tokenize into the expected field count (R86); `length` is the number of its characters. -/
  | untokenized (length : Nat)
  | line (l : SourceLine)
  deriving DecidableEq, Repr

/-- The assembly errors (R86). -/
inductive AsmError where
  | parseError
  | unknownOpcode
  | invalidRegister
  | immediateOutOfRange
  | invalidShiftAmount
  | unresolvedLabel
  deriving DecidableEq, Repr

/-- What the spec does not describe, so the model of the assembler refuses it (D18, U13; log 17). -/
inductive AsmRefusal where
  /-- An immediate or shift operand that is no decimal integer literal (N11). -/
  | undescribedLiteral
  /-- A label declared twice (N12). -/
  | duplicateLabel
  /-- A program longer than `PROG_CAPACITY` (N3). -/
  | overCapacity
  /-- A token or line longer than its bound (N3). -/
  | overlongText
  /-- Another text form the spec does not describe (N10, N11): see `describedLine`. -/
  | undescribedForm
  deriving DecidableEq, Repr

/-- Why an operand or a line has no word. -/
inductive Problem where
  | error (e : AsmError)
  | refusal (r : AsmRefusal)
  deriving DecidableEq, Repr

/-! ## Operands (R78, R79, R84) -/

/-- The register name table (R78). PRESUMED (log 16): the conventional names, from general knowledge. -/
def registerNames : List Token :=
  ["$zero", "$at", "$v0", "$v1", "$a0", "$a1", "$a2", "$a3"] ++
  ["$t0", "$t1", "$t2", "$t3", "$t4", "$t5", "$t6", "$t7"] ++
  ["$s0", "$s1", "$s2", "$s3", "$s4", "$s5", "$s6", "$s7"] ++
  ["$t8", "$t9", "$k0", "$k1", "$gp", "$sp", "$fp", "$ra"]

/-- The name of a register. -/
def registerName (r : RegIdx) : Token := registerNames[r.val]?.getD ""

/-- The register a token names, if it is in the table (R78), letter for letter. DESIGN CHOICE (log 16): whether other
spellings of a register are accepted is not said (N10); a program that uses one is refused (`describedRegister`). -/
def registerIndex (t : Token) : Option RegIdx :=
  (List.finRange 32).find? (fun r => registerName r == t)

/-- The value of a decimal digit. -/
def digitValue (c : Char) : Option Nat :=
  if 48 ≤ c.toNat ∧ c.toNat ≤ 57 then some (c.toNat - 48) else none

/-- The number written by decimal digits, `acc` being what stands before them. -/
def digitsValue : List Char → Nat → Option Nat
  | [], acc => some acc
  | c :: cs, acc => (digitValue c).bind fun d => digitsValue cs (10 * acc + d)

/-- The number written by at least one decimal digit. -/
def naturalValue : List Char → Option Nat
  | [] => none
  | c :: cs => digitsValue (c :: cs) 0

/-- A decimal integer literal, with a leading `-` for negative values (R79; log 23). -/
def literalValue (t : Token) : Option Int :=
  match t.toList with
  | '-' :: cs => (naturalValue cs).map fun n => -(n : Int)
  | cs => (naturalValue cs).map fun n => (n : Int)

/-- A register operand (R78). -/
def readRegister (t : Token) : Except Problem RegIdx :=
  match registerIndex t with
  | some r => .ok r
  | none => .error (.error .invalidRegister)

/-- A signed value in the 16-bit field, or the range error (R67, R79, R84). -/
def checkImmediate (v : Int) : Except Problem Imm16 :=
  if -32768 ≤ v ∧ v ≤ 32767 then .ok (encodeImm v) else .error (.error .immediateOutOfRange)

/-- An immediate operand (R79). -/
def readImmediate (t : Token) : Except Problem Imm16 :=
  match literalValue t with
  | some v => checkImmediate v
  | none => .error (.refusal .undescribedLiteral)

/-- A shift amount in 0..31, or the error (R79). -/
def checkShift (v : Int) : Except Problem Shamt :=
  if h : 0 ≤ v ∧ v ≤ 31 then .ok ⟨v.toNat, by omega⟩ else .error (.error .invalidShiftAmount)

/-- A shift operand (R79). -/
def readShift (t : Token) : Except Problem Shamt :=
  match literalValue t with
  | some v => checkShift v
  | none => .error (.refusal .undescribedLiteral)

/-! ## The Label Resolver (R81 to R84) -/

/-- The Label Table: names and the lines that declare them (R81). -/
abbrev LabelTable := List (Token × Nat)

/-- `declare(label, line_index)` (R81); a line without a label declares nothing. DESIGN CHOICE (log 27): whether a line
that does not tokenize still declares its label is not said; it declares nothing. DESIGN CHOICE (log 26): which strings
may be a label is not said; the table takes any token, and a program with an empty one, or one that holds a
character no token of the described form holds, is refused (`describedLine`). -/
def declareLabel (k : Nat) : InputLine → LabelTable
  | .untokenized _ => []
  | .line l =>
    match l.label with
    | some name => [(name, k)]
    | none => []

/-- Phase 1: the table over all lines, the first of which is line `k` (R81, R83). -/
def labelTable : Nat → List InputLine → LabelTable
  | _, [] => []
  | k, l :: ls => declareLabel k l ++ labelTable (k + 1) ls

/-- `resolve(label)`: exact string lookup (R82). -/
def resolve (table : LabelTable) (label : Token) : Option Nat :=
  (table.find? (fun e => e.1 == label)).map (fun e => e.2)

/-- `branch_offset(current_line_index, label) = resolve(label) - (current_line_index + 1)` (R84). -/
def branchOffset (table : LabelTable) (current : Nat) (label : Token) : Except Problem Imm16 :=
  match resolve table label with
  | some target => checkImmediate ((target : Int) - ((current : Int) + 1))
  | none => .error (.error .unresolvedLabel)

/-! ## The Instruction Encoder (R70, R77) -/

/-- What one line assembles to: an instruction, or everything that is wrong with it (log 18). -/
abbrev LineResult := Except (List Problem) Instr

/-- The problem of an operand, if it has one. -/
def problemOf {α : Type} : Except Problem α → List Problem
  | .ok _ => []
  | .error p => [p]

/-- A three-operand line: the instruction, or the problems of all its operands. -/
def threeOperands {α β γ : Type} (mk : α → β → γ → Instr)
    (a : Except Problem α) (b : Except Problem β) (c : Except Problem γ) : LineResult :=
  match a, b, c with
  | .ok x, .ok y, .ok z => .ok (mk x y z)
  | a, b, c => .error (problemOf a ++ problemOf b ++ problemOf c)

/-- A line's instruction, its operand tokens in R77's order. `nop` ignores its operands (R75, R77);
any other mnemonic is an error, never a macro (R80). The mnemonic is compared letter for letter. DESIGN CHOICE (log 17):
letter case, commas, comments, blank and label-only lines are not described (N11), so a program in which this
comparison would settle one of them is refused as a whole, whatever is answered here (`describedLine`, D18). -/
def assembleTokens (table : LabelTable) (k : Nat) (l : SourceLine) : LineResult :=
  if l.mnemonic = "nop" then .ok .nop
  else if l.mnemonic = "add" then
    threeOperands Instr.add (readRegister l.arg1) (readRegister l.arg2) (readRegister l.arg3)
  else if l.mnemonic = "sll" then
    threeOperands Instr.sll (readRegister l.arg1) (readRegister l.arg2) (readShift l.arg3)
  else if l.mnemonic = "srl" then
    threeOperands Instr.srl (readRegister l.arg1) (readRegister l.arg2) (readShift l.arg3)
  else if l.mnemonic = "addi" then
    threeOperands Instr.addi (readRegister l.arg1) (readRegister l.arg2) (readImmediate l.arg3)
  else if l.mnemonic = "andi" then
    threeOperands Instr.andi (readRegister l.arg1) (readRegister l.arg2) (readImmediate l.arg3)
  else if l.mnemonic = "beq" then
    threeOperands Instr.beq (readRegister l.arg1) (readRegister l.arg2) (branchOffset table k l.arg3)
  else if l.mnemonic = "bne" then
    threeOperands Instr.bne (readRegister l.arg1) (readRegister l.arg2) (branchOffset table k l.arg3)
  else .error [.error .unknownOpcode]

/-- Phase 2 for one input line. -/
def assembleLine (table : LabelTable) (k : Nat) : InputLine → LineResult
  | .untokenized _ => .error [.error .parseError]
  | .line l => assembleTokens table k l

/-- Phase 2 over all lines, the first of which is line `k` (R83). -/
def assembleLines (table : LabelTable) : Nat → List InputLine → List LineResult
  | _, [] => []
  | k, l :: ls => assembleLine table k l :: assembleLines table (k + 1) ls

/-! ## The whole program (R76, R83, R86, R87) -/

/-- A reported error: "reported with the 0-based offending line index" (R86). -/
structure AsmReport where
  line : Nat
  error : AsmError
  deriving DecidableEq, Repr

/-- The source line a report is about, with its mnemonic and operands (R86). -/
def AsmReport.offendingLine (r : AsmReport) (prog : List InputLine) : Option InputLine := prog[r.line]?

/-- What assembling a program comes to. -/
inductive AsmOutcome where
  /-- Every line has a word; the whole image at once (R83). -/
  | image (words : List Word)
  /-- Assembly fails and nothing executes (R86). The list holds every error of the program; which of them is the one
  reported is not described (N14; log 18). -/
  | failed (reports : List AsmReport)
  /-- The program uses a form the spec does not describe (log 17). -/
  | refused (reasons : List AsmRefusal)
  deriving DecidableEq, Repr

/-- The errors among the problems of line `k`. -/
def errorsAt (k : Nat) : List Problem → List AsmReport
  | [] => []
  | .error e :: ps => ⟨k, e⟩ :: errorsAt k ps
  | .refusal _ :: ps => errorsAt k ps

/-- The refusals among problems. -/
def refusalsIn : List Problem → List AsmRefusal
  | [] => []
  | .error _ :: ps => refusalsIn ps
  | .refusal r :: ps => r :: refusalsIn ps

/-- The words of the lines that have one, in line order (R76). -/
def wordsOf : List LineResult → List Word
  | [] => []
  | .ok i :: rs => encode i :: wordsOf rs
  | .error _ :: rs => wordsOf rs

/-- All reports, the first result being line `k`'s. -/
def reportsFrom : Nat → List LineResult → List AsmReport
  | _, [] => []
  | k, .ok _ :: rs => reportsFrom (k + 1) rs
  | k, .error ps :: rs => errorsAt k ps ++ reportsFrom (k + 1) rs

/-- All refusals of single lines. -/
def lineRefusals : List LineResult → List AsmRefusal
  | [] => []
  | .ok _ :: rs => lineRefusals rs
  | .error ps :: rs => refusalsIn ps ++ lineRefusals rs

/-- The tokens of a line. -/
def SourceLine.tokens (l : SourceLine) : List Token :=
  l.label.toList ++ [l.mnemonic, l.arg1, l.arg2, l.arg3]

/-- The characters of an operand token with the space before it; a missing operand has neither. -/
def operandLength (t : Token) : Nat := if t = "" then 0 else 1 + t.length

/-- The characters of a line in the described form `[label:] mnemonic tok tok tok` with single spaces (R75, D18): the
label with its colon and space, the mnemonic, and each operand with the space before it. -/
def SourceLine.textLength (l : SourceLine) : Nat :=
  (match l.label with
    | some name => name.length + 2
    | none => 0) +
  l.mnemonic.length + operandLength l.arg1 + operandLength l.arg2 + operandLength l.arg3

/-- The characters of an input line. -/
def InputLine.textLength : InputLine → Nat
  | .untokenized n => n
  | .line l => l.textLength

/-- The tokens of an input line; an untokenized line has none. -/
def InputLine.tokens : InputLine → List Token
  | .untokenized _ => []
  | .line l => l.tokens

/-- Whether a line fits the text bounds: its whole text `MAX_LINE_LENGTH`, each token `MAX_TOKEN_LENGTH` (R75, D8).
DESIGN CHOICE (log 17): whether a label is a token under the bound, and whether its colon counts there, is not said; it
is, without its colon. -/
def withinTextBounds (cfg : Config) (l : InputLine) : Bool :=
  l.tokens.all (fun t => t.length ≤ cfg.maxTokenLength) && l.textLength ≤ cfg.maxLineLength

/-! ## The described text forms (N10, N11, D18; log 16, log 17, log 26) -/

/-- The fixed set of 8 (R77). -/
def mnemonics : List Token := ["nop", "add", "sll", "srl", "addi", "andi", "beq", "bne"]

/-- A token's characters with letter case taken away. -/
def lowered (t : Token) : List Char := t.toList.map Char.toLower

/-- Whether a character may stand in a token: a printable ASCII character other than a comma, a comment sign or a colon
(N11). DESIGN CHOICE (log 17): which characters are white space is not said (R75); none outside 0x21..0x7E is taken,
so whatever counts as white space stands in no token. -/
def plainChar (c : Char) : Bool :=
  0x21 ≤ c.toNat && c.toNat ≤ 0x7E && !([',', ';', ':', '#'].contains c)

/-- Whether every character of a token may stand in one. -/
def plainToken (t : Token) : Bool := t.toList.all plainChar

/-- Whether the spec says what a mnemonic token is: not the empty one of a blank or label-only line, and not one that
differs from a mnemonic in letter case only (N11). -/
def describedMnemonic (t : Token) : Bool :=
  t != "" && (mnemonics.contains t || !(mnemonics.any fun m => m.toList == lowered t))

/-- A register token's characters without its `$`, if it has one. -/
def bareName : List Char → List Char
  | '$' :: cs => cs
  | cs => cs

/-- Whether the spec says what a register token is: a name of the table, or no spelling of a register at all. The number
of a register, the alias `$s8`, a name without its `$` or in other letter case is undescribed (N10). -/
def describedRegister (t : Token) : Bool :=
  let bare := bareName (lowered t)
  (registerIndex t).isSome ||
    !((naturalValue bare).any (fun n => n < 32) || bare == ['s', '8'] || registerNames.any fun n => n.toList == '$' :: bare)

/-- The register operands of a line, by its mnemonic (R77). -/
def SourceLine.registerOperands (l : SourceLine) : List Token :=
  if l.mnemonic = "nop" then []
  else if l.mnemonic = "add" then [l.arg1, l.arg2, l.arg3]
  else if mnemonics.contains l.mnemonic then [l.arg1, l.arg2]
  else []

/-- Whether a line is of the text form the spec describes (D18): plain tokens, a described mnemonic, described register
operands, and no empty label. -/
def describedLine : InputLine → Bool
  | .untokenized _ => true
  | .line l =>
    l.tokens.all plainToken && describedMnemonic l.mnemonic && l.registerOperands.all describedRegister &&
      l.label != some ""

/-- Whether no label is declared twice (R81: "unique"). -/
def labelsUnique : LabelTable → Bool
  | [] => true
  | e :: es => es.all (fun e' => e'.1 != e.1) && labelsUnique es

/-- The refusals of the program as a whole. -/
def programRefusals (cfg : Config) (prog : List InputLine) : List AsmRefusal :=
  (if labelsUnique (labelTable 0 prog) then [] else [.duplicateLabel]) ++
  (if prog.length ≤ cfg.progCapacity then [] else [.overCapacity]) ++
  (if prog.all (withinTextBounds cfg) then [] else [.overlongText]) ++
  (if prog.all describedLine then [] else [.undescribedForm])

/-- The results of phase 2 over the completed table of phase 1 (R83). -/
def phaseTwo (prog : List InputLine) : List LineResult :=
  assembleLines (labelTable 0 prog) 0 prog

/-- The outcome, from what was found: a refusal before an error, an error before an image. -/
def settleAssembly (refusals : List AsmRefusal) (reports : List AsmReport) (words : List Word) : AsmOutcome :=
  match refusals, reports with
  | [], [] => .image words
  | [], r :: rs => .failed (r :: rs)
  | x :: xs, _ => .refused (x :: xs)

/-- Assembly of a program (R83, R86): the complete image, or none. -/
def assemble (cfg : Config) (prog : List InputLine) : AsmOutcome :=
  settleAssembly (programRefusals cfg prog ++ lineRefusals (phaseTwo prog))
    (reportsFrom 0 (phaseTwo prog)) (wordsOf (phaseTwo prog))

/-- The output per line: the address `BASE_ADDRESS + 4*i` and the word (R88, D19; log 13). -/
def listing (cfg : Config) (words : List Word) : List (Word × Word) :=
  words.zipIdx.map fun p => (cfg.baseAddress + BitVec.ofNat 32 (4 * p.2), p.1)

/-- The launch state of a session (R9, R86, R183): none after a failed assembly, since the block never leaves reset. -/
def launch : AsmOutcome → Option State
  | .image words => some (State.load words)
  | .failed _ => none
  | .refused _ => none

end Sys2Proof.Machine
end

