-- ==== Sys2Proof/Machine/Datapath.lean ====
section
/-! DEFINITION. The block as hardware, with the spec's own interfaces (D11): decoder (R107), ALU (the ALU paragraph of `spec/41_nop_rtype.md`), program-counter unit (R156), one clock cycle of the whole with the `reset` input (R181). It computes on wires, without the instruction type; that it is the same machine as `tick` is a statement to prove. -/

namespace Sys2Proof.Machine

/-- The decoder's outputs (R107). -/
structure DecoderOut where
  cls : Class
  rs : RegIdx
  rt : RegIdx
  rd : RegIdx
  shamt : Shamt
  imm32 : Word
  illegal : Bool
  deriving DecidableEq, Repr

/-- The decoder. For the zero word the field outputs are unspecified (R106): they are those of `junk`, any value (log 15). -/
def decoderUnit (junk : DecoderOut) (w : Word) : DecoderOut :=
  if w = 0#32 then { junk with cls := .nop, illegal := false }
  else
    { cls := classify w
      rs := rsOf w
      rt := rtOf w
      rd := rdOf w
      shamt := shamtOf w
      imm32 := sext32 (imm16Of w)
      illegal := classify w == .illegal }

/-- The ALU's outputs: a register write (enable, index, data) and a branch delta, a signed 16-bit value. -/
structure AluOut where
  write : Option (RegIdx × Word)
  delta : Imm16
  deriving DecidableEq, Repr

/-- The ALU, on the decoder's outputs and the two register read values `a = x[rs]` and `b = x[rt]`. -/
def aluUnit (d : DecoderOut) (a b : Word) : AluOut :=
  match d.cls with
  | .nop => ⟨none, 0⟩
  | .add => ⟨some (d.rd, b + a), 0⟩
  | .sll => ⟨some (d.rd, b <<< d.shamt.val), 0⟩
  | .srl => ⟨some (d.rd, b >>> d.shamt.val), 0⟩
  | .addi => ⟨some (d.rt, a + d.imm32), 0⟩
  | .andi => ⟨some (d.rt, a &&& d.imm32), 0⟩
  | .beq => ⟨none, if b = a then d.imm32.setWidth 16 else 0⟩
  | .bne => ⟨none, if b = a then 0 else d.imm32.setWidth 16⟩
  | .illegal => ⟨none, 0⟩

/-- The program-counter unit's outputs (R156). -/
structure PcUnitOut where
  indexNext : Int
  fetchIndex : Int
  running : Bool
  pc : Word
  deriving DecidableEq, Repr

/-- The program-counter unit (R156). -/
def pcUnit (cfg : Config) (index : Int) (delta : Imm16) (n : Nat) : PcUnitOut :=
  { indexNext := index + 1 + delta.toInt
    fetchIndex := index
    running := decide (0 ≤ index ∧ index < n)
    pc := cfg.baseAddress + BitVec.ofInt 32 (4 * index) }

/-- The cycle of a running machine on its fetched word: fault, or the register write port and the cursor load at the
end of the step (R156, R186). -/
def cycleOn (cfg : Config) (junk : DecoderOut) (w : Word) (s : State) : State :=
  let d := decoderUnit junk w
  if d.illegal then s.latchFault (.illegalWord s.index w)
  else
    let a := aluUnit d (s.readReg d.rs) (s.readReg d.rt)
    { s.applyWrite a.write with index := (pcUnit cfg s.index a.delta s.image.length).indexNext }

/-- One clock cycle of the block. While `resetIn` is asserted the registers and the cursor are held at 0 (R181);
a machine that is not running or has faulted holds its state (R156, R166). -/
def cycle (cfg : Config) (junk : DecoderOut) (resetIn : Bool) (s : State) : State :=
  if resetIn then s.resetInput
  else if s.faultMark.isSome then s
  else
    let p := pcUnit cfg s.index 0 s.image.length
    if p.running then
      match s.image[p.fetchIndex.toNat]? with
      | some w => cycleOn cfg junk w s
      | none => s
    else s

end Sys2Proof.Machine
end

