-- ==== Sys2Proof/Safety.lean ====
section
/-! DEFINITION. What a safe image and a safe run are, in the terms claims use (R87, R150, R166, R167, D16), and the invariant of the machine's state. -/

namespace Sys2Proof.Machine

/-- `legal(P)`: every word of the image is one of the eight instructions (R166, R167, D16). -/
abbrev LegalImage (image : List Word) : Prop := ∀ w ∈ image, isLegal w = true

/-- `canonical(P)`: every word is one the encoder can emit (R70, R87). -/
abbrev CanonicalImage (image : List Word) : Prop := ∀ w ∈ image, isCanonical w = true

/-- `N <= PROG_CAPACITY` (R26, D8). -/
abbrev WithinCapacity (cfg : Config) (image : List Word) : Prop := image.length ≤ cfg.progCapacity

/-- The index a branch in the word at `k` goes to when taken (R84, R146), or the next index for any other word. -/
def takenTarget (k : Nat) (w : Word) : Int :=
  match classify w with
  | .beq => (k : Int) + 1 + signed16 (imm16Of w)
  | .bne => (k : Int) + 1 + signed16 (imm16Of w)
  | _ => (k : Int) + 1

/-- Every branch of the image goes to an index `0..N-1` (R85, R87). -/
abbrev TargetsInRange (image : List Word) : Prop :=
  ∀ k w, image[k]? = some w → classify w = .beq ∨ classify w = .bne →
    0 ≤ takenTarget k w ∧ takenTarget k w < image.length

/-- The cursor stays in `-32767 .. N + 32767` (R24). -/
abbrev CursorBounded (s : State) : Prop :=
  -32767 ≤ s.index ∧ s.index ≤ (s.image.length : Int) + 32767

/-- A fault mark names the cursor's own word, and that word is illegal (R166). -/
abbrev FaultMarkTrue (s : State) : Prop :=
  ∀ k w, s.faultMark = some (.illegalWord k w) →
    k = s.index ∧ s.fetch = some w ∧ classify w = .illegal

/-- The invariant of the machine's state (R24, R166). -/
abbrev Invariant (s : State) : Prop := CursorBounded s ∧ FaultMarkTrue s

/-- The invariant of a run inside its program (R85, R87, R166): no fault, an image of legal words whose branches stay in
it, and the cursor in `0..N`. -/
abbrev ProgramInvariant (s : State) : Prop :=
  s.faultMark = none ∧ LegalImage s.image ∧ TargetsInRange s.image ∧ 0 ≤ s.index ∧ s.index ≤ s.image.length

/-- The frame of an instruction that writes register `r`: from `s` to `t` no other register, no word of the image and
no fault mark changes. The cursor may. -/
abbrev UnchangedBut (r : RegIdx) (s t : State) : Prop :=
  (∀ q, q ≠ r → t.readReg q = s.readReg q) ∧ t.image = s.image ∧ t.faultMark = s.faultMark

/-- The frame of an instruction that writes no register: only the cursor may change. -/
abbrev UnchangedButCursor (s t : State) : Prop :=
  (∀ q, t.readReg q = s.readReg q) ∧ t.image = s.image ∧ t.faultMark = s.faultMark

/-- A safe run: no clock of it faults (R166, R169). It may end normally or run forever. -/
abbrev NeverFaults (s : State) : Prop := ∀ k, (run k s).faultMark = none

end Sys2Proof.Machine
end

