-- ==== Sys2Proof/Certificates/Slice0/Obligations.lean ====
section
/-! DEFINITION. The statements about the machine. Each docstring names the rule of the spec it formalises; "rests on D<n>" names a decision the spec marks as its own. -/

open Sys2Proof Sys2Proof.Machine

/-! ## Reset -/

/-- R31: after reset every register holds 0, the cursor holds 0, and the derived pc is `BASE_ADDRESS`. -/
def Obligations.ResetZeroesRegistersAndCursor : Prop :=
  (∀ r, State.reset.readReg r = 0) ∧ State.reset.index = 0 ∧ ∀ cfg, pc cfg State.reset = cfg.baseAddress

/-- The `reset` input zeroes the registers and the cursor, clears the fault mark and leaves the image (R181, the
spec's decision D14; log 14), so the run of the image starts afresh from its launch state. -/
def Obligations.ResetInputStartsAFreshRun : Prop :=
  ∀ s : State, (∀ r, s.resetInput.readReg r = 0) ∧ s.resetInput.index = 0 ∧ s.resetInput.faultMark = none ∧
    s.resetInput.image = s.image ∧ s.resetInput = State.load s.image

/-- The reset state, and the launch state of every image, meet the machine's invariant (R24, R31, R180). -/
def Obligations.LaunchMeetsInvariant : Prop :=
  Invariant State.reset ∧ ∀ image, Invariant (State.load image)

/-- R182, R153 (both derived in the spec): the first step after launch fetches `P[0]` if there is one; the empty
program is terminal at reset, takes no step and keeps every register 0. -/
def Obligations.FirstFetchIsWordZero : Prop :=
  (∀ w ws, (State.load (w :: ws)).fetch = some w) ∧
  (State.load []).Terminal ∧ step (State.load []) = .refused .runEnded ∧
  ∀ k, run k (State.load []) = State.load []

/-! ## Decoder and encoder -/

/-- Words written out from R61 to R69 decode to the instructions they stand for (values of R111 and of the derived
vectors of `spec/95_test_vectors.md`, 2.1 and 2.2). -/
def Obligations.SampleWordsDecode : Prop :=
  decode 0b00000000000000000000000000000000#32 = .ok .nop ∧
  decode 0b00000001001010100100000000100000#32 = .ok (.add 8 9 10) ∧
  decode 0b00000000000010010101000100000000#32 = .ok (.sll 10 9 4) ∧
  decode 0b00000000000010000100111100000010#32 = .ok (.srl 9 8 28) ∧
  decode 0b00100001001010010000000000000001#32 = .ok (.addi 9 9 1) ∧
  decode 0b00110001000011001111111100000000#32 = .ok (.andi 12 8 0xFF00) ∧
  decode 0b00010010000100010000000000000010#32 = .ok (.beq 16 17 2) ∧
  decode 0b00010101001010001111111111111110#32 = .ok (.bne 9 8 0xFFFE) ∧
  decode 0x00000021#32 = .error (.unassignedFunct 0x21) ∧
  decode 0x0C000000#32 = .error (.unassignedOpcode 0x03)

/-- R104: every field as a shift and a mask on the unsigned value of the word, and the immediate sign-extended. -/
def Obligations.FieldsAreShiftAndMask : Prop :=
  ∀ w : Word,
    (opcodeOf w).toNat = w.toNat / 2 ^ 26 ∧
    (rsOf w).val = w.toNat / 2 ^ 21 % 32 ∧
    (rtOf w).val = w.toNat / 2 ^ 16 % 32 ∧
    (rdOf w).val = w.toNat / 2 ^ 11 % 32 ∧
    (shamtOf w).val = w.toNat / 2 ^ 6 % 32 ∧
    (functOf w).toNat = w.toNat % 64 ∧
    (imm16Of w).toNat = w.toNat % 65536 ∧
    ∀ k, k < 32 → (sext32 (imm16Of w)).getLsbD k = if k < 16 then w.getLsbD k else w.getLsbD 15

/-- R69: the class of a word is that of the first row of the opcode table it matches, tests made in the order of the
priority column; and only `nop` and `sll` overlap. -/
def Obligations.OpcodeTableGivesTheClass : Prop :=
  (∀ w, classify w = tableClass w) ∧
  (∀ w, ∀ r ∈ opcodeTable, ∀ r' ∈ opcodeTable, r ≠ r' → r.matchesWord w = true → r'.matchesWord w = true →
    w = 0#32 ∧ (r.cls = .nop ∧ r'.cls = .sll ∨ r.cls = .sll ∧ r'.cls = .nop))

/-- Every non-zero word that fits an instruction's mask and match decodes to it, with the operands at their fields,
whatever its ignored bits (R61, R69, R71; the ignored bits rest on D5, log 5). -/
def Obligations.MaskAndMatchDecode : Prop :=
  ∀ w : Word, w ≠ 0#32 →
    (w &&& 0xFC00003F#32 = 0x00000020#32 → decode w = .ok (.add (rdOf w) (rsOf w) (rtOf w))) ∧
    (w &&& 0xFC00003F#32 = 0x00000000#32 → decode w = .ok (.sll (rdOf w) (rtOf w) (shamtOf w))) ∧
    (w &&& 0xFC00003F#32 = 0x00000002#32 → decode w = .ok (.srl (rdOf w) (rtOf w) (shamtOf w))) ∧
    (w &&& 0xFC000000#32 = 0x20000000#32 → decode w = .ok (.addi (rtOf w) (rsOf w) (imm16Of w))) ∧
    (w &&& 0xFC000000#32 = 0x30000000#32 → decode w = .ok (.andi (rtOf w) (rsOf w) (imm16Of w))) ∧
    (w &&& 0xFC000000#32 = 0x10000000#32 → decode w = .ok (.beq (rsOf w) (rtOf w) (imm16Of w))) ∧
    (w &&& 0xFC000000#32 = 0x14000000#32 → decode w = .ok (.bne (rsOf w) (rtOf w) (imm16Of w)))

/-- R103: for opcodes other than 0 the low 26 bits take no part in classification. -/
def Obligations.FunctIsIgnoredOutsideOpcodeZero : Prop :=
  ∀ w w' : Word, opcodeOf w ≠ 0#6 → w.toNat / 2 ^ 26 = w'.toNat / 2 ^ 26 → classify w = classify w'

/-- R71, R105: the `shamt` bits of an `add` and the `rs` bits of a `sll` or `srl` have no effect on what the word
decodes to (rests on D5, log 5). -/
def Obligations.IgnoredBitsHaveNoEffect : Prop :=
  (∀ w w' : Word, w &&& 0xFFFFF83F#32 = w' &&& 0xFFFFF83F#32 → classify w = .add → decode w' = decode w) ∧
  (∀ w w' : Word, w &&& 0xFC1FFFFF#32 = w' &&& 0xFC1FFFFF#32 → w' ≠ 0#32 →
    classify w = .sll ∨ classify w = .srl → decode w' = decode w)

/-- R68, R69, R72: the words outside the instruction set are the non-zero words with an unassigned opcode, or with
opcode 0 and an unassigned funct; the decoder rejects exactly these, by name (the class is D4's, log 4). -/
def Obligations.UnassignedEncodingsAreRejected : Prop :=
  ∀ w : Word,
    (decode w = .error (.unassignedOpcode (opcodeOf w)) ↔
      opcodeOf w ≠ 0x00#6 ∧ opcodeOf w ≠ 0x04#6 ∧ opcodeOf w ≠ 0x05#6 ∧ opcodeOf w ≠ 0x08#6 ∧ opcodeOf w ≠ 0x0C#6) ∧
    (decode w = .error (.unassignedFunct (functOf w)) ↔
      opcodeOf w = 0x00#6 ∧ functOf w ≠ 0x00#6 ∧ functOf w ≠ 0x02#6 ∧ functOf w ≠ 0x20#6) ∧
    (isLegal w = false ↔ ∃ e, decode w = .error e)

/-- Decode and encode agree: the canonical word of every instruction decodes to that instruction with every operand at
every value, but for `sll $zero $zero 0`, whose canonical word is the zero word, `nop` (R70, R91, R102). -/
def Obligations.DecodeOfEncode : Prop :=
  (∀ i : Instr, i.WellFormed = true → decode (encode i) = .ok i) ∧
  ∀ i : Instr, i.WellFormed = false → i = .sll 0 0 0 ∧ decode (encode i) = .ok .nop

/-- R108 (derived in the spec): encoding a decoded word gives the word back exactly when it is canonical; otherwise it
gives a canonical word whose instruction has the same meaning in every state. -/
def Obligations.EncodeOfDecode : Prop :=
  ∀ w i, decode w = .ok i →
    (encode i = w ↔ isCanonical w = true) ∧
    isCanonical (encode i) = true ∧
    ∃ j, decode (encode i) = .ok j ∧ ∀ s, exec j s = exec i s

/-- R70 (derived in the spec): the canonical words are exactly the words the encoder emits, and two instructions share
one only if it is the zero word. -/
def Obligations.EncoderEmitsTheCanonicalWords : Prop :=
  (∀ w, isCanonical w = true ↔ ∃ i, encode i = w) ∧
  ∀ i j, encode i = encode j → i = j ∨ encode i = 0#32

/-- R91 (derived in the spec): the instructions whose canonical word is zero are `nop` and `sll $zero $zero 0`. -/
def Obligations.ZeroWordHasTwoSources : Prop :=
  ∀ i, encode i = 0#32 ↔ i = .nop ∨ i = .sll 0 0 0

/-- R89: for every register name of the 32-entry table, encode-then-decode recovers the identical index, at each of
the three register fields (the names themselves are R78's, PRESUMED, log 16). -/
def Obligations.RegisterRoundTrip : Prop :=
  ∀ r : RegIdx, readRegister (registerName r) = .ok r ∧
    (∀ a b, rsOf (encode (.add a r b)) = r ∧ rtOf (encode (.add a b r)) = r ∧ rdOf (encode (.add r a b)) = r) ∧
    ((r.val <<< 21) >>> 21) &&& 31 = r.val ∧ ((r.val <<< 16) >>> 16) &&& 31 = r.val ∧
    ((r.val <<< 11) >>> 11) &&& 31 = r.val

/-- R90: every immediate in -32768..32767 is recovered exactly, sign included, by encoding then decoding an `addi` or
an `andi`. -/
def Obligations.ImmediateRoundTrip : Prop :=
  ∀ x : Int, -32768 ≤ x → x ≤ 32767 →
    signed16 (encodeImm x) = x ∧
    ∀ rt rs, (∃ v, decode (encode (.addi rt rs (encodeImm x))) = .ok (.addi rt rs v) ∧ signed16 v = x) ∧
      ∃ v, decode (encode (.andi rt rs (encodeImm x))) = .ok (.andi rt rs v) ∧ signed16 v = x

/-! ## The instructions: completion, result and frame -/

/-- R120: the zero word, and it alone, is `nop`, and the assembler ignores a `nop`'s operand tokens; it changes nothing
but the cursor, which advances by one, so that as the last word it ends the run normally. -/
def Obligations.NopOnlyAdvances : Prop :=
  (∀ w, decode w = .ok .nop ↔ w = 0#32) ∧ encode .nop = 0#32 ∧
  (∀ table k label a b c, assembleTokens table k ⟨label, "nop", a, b, c⟩ = .ok .nop) ∧
  (∀ s : State, ∃ t, exec .nop s = .next t ∧ t.index = s.index + 1 ∧ UnchangedButCursor s t) ∧
  ∀ s t : State, exec .nop s = .next t → s.faultMark = none → s.index + 1 = s.image.length → status t = .finished

/-- R122, R123: `add` completes in every state and writes `x[rt] + x[rs]` modulo 2^32 to `x[rd]` and nothing else.
Rests on D2 (wrap, log 2) and, for `rd = 0`, on D1 (register 0 is written, log 1). -/
def Obligations.AddWritesTheSum : Prop :=
  ∀ rd rs rt s, ∃ t, exec (.add rd rs rt) s = .next t ∧
    (t.readReg rd).toNat = ((s.readReg rt).toNat + (s.readReg rs).toNat) % 2 ^ 32 ∧
    t.index = s.index + 1 ∧ UnchangedBut rd s t

/-- R124: `sll` completes in every state and writes `x[rt] * 2^shamt` modulo 2^32 to `x[rd]` and nothing else.
Rests on D3 (log 3) and, for `rd = 0`, on D1 (log 1). -/
def Obligations.SllWritesTheShift : Prop :=
  ∀ rd rt (shamt : Shamt) s, ∃ t, exec (.sll rd rt shamt) s = .next t ∧
    (t.readReg rd).toNat = ((s.readReg rt).toNat * 2 ^ shamt.val) % 2 ^ 32 ∧
    t.index = s.index + 1 ∧ UnchangedBut rd s t

/-- R126: `srl` completes in every state and writes `floor(unsigned(x[rt]) / 2^shamt)` to `x[rd]` and nothing else.
For `rd = 0` rests on D1 (log 1). -/
def Obligations.SrlWritesTheShift : Prop :=
  ∀ rd rt (shamt : Shamt) s, ∃ t, exec (.srl rd rt shamt) s = .next t ∧
    (t.readReg rd).toNat = (s.readReg rt).toNat / 2 ^ shamt.val ∧
    t.index = s.index + 1 ∧ UnchangedBut rd s t

/-- R130: `addi` completes in every state and writes `x[rs]` plus the signed immediate, modulo 2^32, to `x[rt]` and
nothing else. Rests on D2 (log 2) and, for `rt = 0`, on D1 (log 1). -/
def Obligations.AddiWritesTheSum : Prop :=
  ∀ rt rs imm s, ∃ t, exec (.addi rt rs imm) s = .next t ∧
    ((t.readReg rt).toNat : Int) = ((s.readReg rs).toNat + imm.toInt) % 2 ^ 32 ∧
    t.index = s.index + 1 ∧ UnchangedBut rt s t

/-- R132: `andi` completes in every state and writes the AND of `x[rs]` with the sign-extended immediate to `x[rt]` and
nothing else: bits 31:16 of the mask are copies of the immediate's bit 15. For `rt = 0` rests on D1 (log 1). -/
def Obligations.AndiWritesTheMaskedValue : Prop :=
  ∀ rt rs imm s, ∃ t, exec (.andi rt rs imm) s = .next t ∧
    (∀ k, k < 32 → (t.readReg rt).getLsbD k =
      ((s.readReg rs).getLsbD k && if k < 16 then imm.getLsbD k else imm.getLsbD 15)) ∧
    t.index = s.index + 1 ∧ UnchangedBut rt s t

/-- R140: every word with opcode 0x04 is `beq`, encoded and assembled as the rule says; it completes in every state,
moves the cursor by `1 + offset` if the registers are equal and by 1 if not, always so when both are one register, and
changes nothing else; taken with offset -1 it returns to itself, and taken out of the program it ends the run normally. -/
def Obligations.BeqBranchesOnEqual : Prop :=
  (∀ w, opcodeOf w = 0x04#6 → decode w = .ok (.beq (rsOf w) (rtOf w) (imm16Of w))) ∧
  (∀ rs rt off, (encode (.beq rs rt off)).toNat = 0x10000000 + rs.val * 2 ^ 21 + rt.val * 2 ^ 16 + off.toNat) ∧
  (∀ table k label a b c rs rt off, readRegister a = .ok rs → readRegister b = .ok rt →
    branchOffset table k c = .ok off → assembleTokens table k ⟨label, "beq", a, b, c⟩ = .ok (.beq rs rt off)) ∧
  (∀ rs rt off s, ∃ t, exec (.beq rs rt off) s = .next t ∧ UnchangedButCursor s t ∧
    (s.readReg rt = s.readReg rs → t.index = s.index + 1 + off.toInt) ∧
    (s.readReg rt ≠ s.readReg rs → t.index = s.index + 1) ∧
    (s.faultMark = none → t.index < 0 ∨ (s.image.length : Int) ≤ t.index → status t = .finished)) ∧
  (∀ r off s, ∃ t, exec (.beq r r off) s = .next t ∧ t.index = s.index + 1 + off.toInt) ∧
  ∀ rs rt s, s.readReg rt = s.readReg rs → exec (.beq rs rt 0xFFFF) s = .next s

/-- R142: every word with opcode 0x05 is `bne`, encoded and assembled as the rule says; it completes in every state,
moves the cursor by `1 + offset` if the registers differ and by 1 if not, never so when both are one register, and
changes nothing else; taken with offset -1 it returns to itself, and taken out of the program it ends the run normally. -/
def Obligations.BneBranchesOnDifferent : Prop :=
  (∀ w, opcodeOf w = 0x05#6 → decode w = .ok (.bne (rsOf w) (rtOf w) (imm16Of w))) ∧
  (∀ rs rt off, (encode (.bne rs rt off)).toNat = 0x14000000 + rs.val * 2 ^ 21 + rt.val * 2 ^ 16 + off.toNat) ∧
  (∀ table k label a b c rs rt off, readRegister a = .ok rs → readRegister b = .ok rt →
    branchOffset table k c = .ok off → assembleTokens table k ⟨label, "bne", a, b, c⟩ = .ok (.bne rs rt off)) ∧
  (∀ rs rt off s, ∃ t, exec (.bne rs rt off) s = .next t ∧ UnchangedButCursor s t ∧
    (s.readReg rt ≠ s.readReg rs → t.index = s.index + 1 + off.toInt) ∧
    (s.readReg rt = s.readReg rs → t.index = s.index + 1) ∧
    (s.faultMark = none → t.index < 0 ∨ (s.image.length : Int) ≤ t.index → status t = .finished)) ∧
  (∀ r off s, ∃ t, exec (.bne r r off) s = .next t ∧ t.index = s.index + 1) ∧
  ∀ rs rt s, s.readReg rt ≠ s.readReg rs → exec (.bne rs rt 0xFFFF) s = .next s

/-- R121 (derived in the spec): executing the zero word as `nop` and executing it as the `sll` its fields read are
indistinguishable in every state. -/
def Obligations.ZeroWordReadingsAgree : Prop :=
  ∀ s, exec (.sll 0 0 0) s = exec .nop s

/-- R160: no instruction raises an exception: in every state every instruction answers a next state, and none marks a
fault. -/
def Obligations.NoInstructionRaises : Prop :=
  ∀ i s, ∃ t, exec i s = .next t ∧ t.faultMark = s.faultMark

/-! ## The step -/

/-- A step of a machine that has not faulted, at a cursor inside the image whose word decodes to `i`, is `exec i`
(R144, R145). The meanings move the cursor themselves; the step adds nothing. -/
def Obligations.StepRunsTheDecodedInstruction : Prop :=
  ∀ s w i, s.faultMark = none → 0 ≤ s.index → s.image[s.index.toNat]? = some w → decode w = .ok i →
    step s = exec i s

/-- The whole step as R147's pseudocode writes it, on the numbers of the word's bits, the fault arms included (those
rest on D4, log 4; the sums on D2, `sll` on D3, a write of register 0 on D1). -/
def Obligations.StepFollowsThePseudocode : Prop :=
  ∀ (s : State) (w : Word), s.faultMark = none → 0 ≤ s.index → s.image[s.index.toNat]? = some w →
    let opcode := w.toNat >>> 26
    let rs : RegIdx := Fin.ofNat 32 (w.toNat >>> 21)
    let rt : RegIdx := Fin.ofNat 32 (w.toNat >>> 16)
    let rd : RegIdx := Fin.ofNat 32 (w.toNat >>> 11)
    let shamt := (w.toNat >>> 6) &&& 31
    let funct := w.toNat &&& 63
    let off : Int := if w.toNat &&& 0xFFFF < 32768 then (w.toNat &&& 0xFFFF : Nat) else (w.toNat &&& 0xFFFF : Nat) - 65536
    let a := s.regs[rs]
    let b := s.regs[rt]
    let next (regs : Vector Word 32) (delta : Int) : StepResult :=
      .next { s with regs := regs, index := s.index + 1 + delta }
    step s =
      if w.toNat = 0 then next s.regs 0
      else if opcode = 0x00 then
        if funct = 0x20 then next (s.regs.set rd (b + a)) 0
        else if funct = 0x00 then next (s.regs.set rd (b <<< shamt)) 0
        else if funct = 0x02 then next (s.regs.set rd (b >>> shamt)) 0
        else .fault (.illegalWord s.index w)
      else if opcode = 0x08 then next (s.regs.set rt (a + BitVec.ofInt 32 off)) 0
      else if opcode = 0x0C then next (s.regs.set rt (a &&& BitVec.ofInt 32 off)) 0
      else if opcode = 0x04 then next s.regs (if b = a then off else 0)
      else if opcode = 0x05 then next s.regs (if b ≠ a then off else 0)
      else .fault (.illegalWord s.index w)

/-- R150: a machine that has not faulted is terminal exactly when `index < 0` or `index >= N`; a terminal state has no
step, and only a terminal state has neither a step nor a fault; the run is over there, normally. -/
def Obligations.TerminalStatesHaveNoStep : Prop :=
  ∀ s, s.faultMark = none →
    ((s.index < 0 ∨ (s.image.length : Int) ≤ s.index) ↔ (∀ t, step s ≠ .next t) ∧ ∀ f, step s ≠ .fault f) ∧
    ((s.index < 0 ∨ (s.image.length : Int) ≤ s.index) ↔ status s = .finished) ∧
    ((s.index < 0 ∨ (s.image.length : Int) ≤ s.index) → ∀ k, run k s = s)

/-- R166: the step of an illegal word is the fault with the cursor and the word; the faulted state differs from the
state before in the fault mark only, is not terminal, and has no further step (the spec's decision D4; log 4, log 8). -/
def Obligations.IllegalWordFaultsAndHolds : Prop :=
  ∀ s w, s.faultMark = none → 0 ≤ s.index → s.image[s.index.toNat]? = some w → isLegal w = false →
    step s = .fault (.illegalWord s.index w) ∧
    (∀ q, (tick s).readReg q = s.readReg q) ∧ (tick s).index = s.index ∧ (tick s).image = s.image ∧
    (tick s).faultMark = some (.illegalWord s.index w) ∧ (tick s).Running ∧
    ∀ k, run (k + 1) s = tick s ∧ step (run (k + 1) s) = .fault (.illegalWord s.index w)

/-- R146: every step of a legal instruction ends with `index <- index + 1 + delta`, where `delta` is the signed offset
of a taken branch and 0 otherwise. The derived pc advances by `4 + 4*delta`, modulo 2^32: that reduction, which shows
where the next state is outside the program, is the spec's own choice D9 (log 13). -/
def Obligations.EveryStepAdvancesByDelta : Prop :=
  ∀ s w i, s.faultMark = none → s.fetch = some w → decode w = .ok i →
    ∃ t, ∃ delta : Int, step s = .next t ∧ t.index = s.index + 1 + delta ∧
      (∀ cfg, pc cfg t = pc cfg s + BitVec.ofInt 32 (4 + 4 * delta)) ∧
      (i.cls ≠ .beq → i.cls ≠ .bne → delta = 0) ∧
      (∀ rs rt off, i = .beq rs rt off → delta = if s.readReg rt = s.readReg rs then off.toInt else 0) ∧
      (∀ rs rt off, i = .bne rs rt off → delta = if s.readReg rt = s.readReg rs then 0 else off.toInt)

/-- R145 with R127 and R133: a step writes at most one register, and one that moves the cursor by anything but 1
writes none. -/
def Obligations.AtMostOneRegisterIsWritten : Prop :=
  ∀ s t, step s = .next t →
    (∃ r, ∀ q, q ≠ r → t.readReg q = s.readReg q) ∧
    (t.index ≠ s.index + 1 → t.regs = s.regs) ∧ t.image = s.image ∧ t.faultMark = none

/-- R52: the image is read-only: every fetch of an index during a run reads the word that stood there at the start. -/
def Obligations.ImageIsNeverWritten : Prop :=
  ∀ s k, (run k s).image = s.image ∧
    ((run k s).Running → (run k s).fetch = s.image[(run k s).index.toNat]?)

/-- R149: a branch target is not checked: whatever the target of a taken branch, the step answers a next state; a
target outside the program ends the run at the next step without a fault, and one inside is the next word fetched. -/
def Obligations.BranchTargetsAreNotChecked : Prop :=
  ∀ s w i rs rt off, s.faultMark = none → s.fetch = some w → decode w = .ok i →
    (i = .beq rs rt off ∧ s.readReg rt = s.readReg rs ∨ i = .bne rs rt off ∧ s.readReg rt ≠ s.readReg rs) →
    ∃ t, step s = .next t ∧ t.index = s.index + 1 + off.toInt ∧
      (t.index < 0 ∨ (s.image.length : Int) ≤ t.index →
        (∀ u, step t ≠ .next u) ∧ (∀ f, step t ≠ .fault f) ∧ status t = .finished) ∧
      (0 ≤ t.index → t.fetch = s.image[(s.index + 1 + off.toInt).toNat]?)

/-- R140's corner case and R152: a `beq` of a register with itself and offset -1 never leaves its index: the state is
the same after any number of clocks, and never terminal. -/
def Obligations.BranchToSelfLoopsForEver : Prop :=
  ∀ s w r, s.faultMark = none → s.fetch = some w → decode w = .ok (.beq r r 0xFFFF) →
    ∀ k, run k s = s ∧ status (run k s) = .running

/-- R25: the derived pc is `BASE_ADDRESS + 4*index`, reduced modulo 2^32 (the reduction is the spec's choice D9,
log 13), for every value of `BASE_ADDRESS`. -/
def Obligations.PcIsDerivedFromTheCursor : Prop :=
  ∀ cfg s, ((pc cfg s).toNat : Int) = (cfg.baseAddress.toNat + 4 * s.index) % 2 ^ 32

/-- R154: the trace entry of a step holds the index fetched, the class of the word, and the one register write of the
decoded instruction (R22's table, R127, R133): none exactly for `nop`, `beq` and `bne`, else the `rd` or `rt` field with
the value it holds afterwards, whether or not that value is new; and `trace` is these entries in the order of the
steps, with none for a state that has no next state (log 25). -/
def Obligations.TraceRecordsEveryStep : Prop :=
  ∀ s,
    (∀ t, step s = .next t → ∃ e w i, traceEntry s = some e ∧ s.fetch = some w ∧ decode w = .ok i ∧
      e.index = s.index ∧ e.cls = classify w ∧
      (e.written = none ↔ i = .nop ∨ (∃ rs rt off, i = .beq rs rt off) ∨ ∃ rs rt off, i = .bne rs rt off) ∧
      (∀ rd rs rt, i = .add rd rs rt → e.written = some (rd, t.readReg rd)) ∧
      (∀ rd rt shamt, i = .sll rd rt shamt ∨ i = .srl rd rt shamt → e.written = some (rd, t.readReg rd)) ∧
      (∀ rt rs imm, i = .addi rt rs imm ∨ i = .andi rt rs imm → e.written = some (rt, t.readReg rt)) ∧
      (e.written = none → t.regs = s.regs) ∧
      (∀ r v, e.written = some (r, v) → t.readReg r = v ∧ ∀ q, q ≠ r → t.readReg q = s.readReg q) ∧
      ∀ k, trace (k + 1) s = e :: trace k t) ∧
    ((∀ t, step s ≠ .next t) → traceEntry s = none ∧ ∀ k, trace k s = [])

/-- A word placed with `withFetchWord` is the next one to run, in every state (the model's own, log 12). -/
def Obligations.PlacedWordRunsNext : Prop :=
  ∀ (s : State) nbits w i, decodeTableWord nbits w = some i →
    step (s.withFetchWord nbits w) = exec i (s.withFetchWord nbits w) ∧
    (s.withFetchWord nbits w).regs = s.regs

/-! ## The run -/

/-- Every step and every clock keeps the machine's invariant: the cursor stays in `-32767 .. N + 32767` (R24) and a
fault mark names the illegal word at the cursor (R166). -/
def Obligations.StepKeepsInvariant : Prop :=
  ∀ s, Invariant s → (∀ t, step s = .next t → Invariant t) ∧ Invariant (tick s)

/-- R24, R7, D6: within capacity, a cursor register of a sufficient `INDEX_WIDTH` holds every cursor a run from the
launch state reaches, so no wrap-around can occur. -/
def Obligations.CursorNeverWraps : Prop :=
  ∀ (cfg : Config) image k, cfg.IndexWidthSuffices → WithinCapacity cfg image →
    (BitVec.ofInt cfg.indexWidth (run k (State.load image)).index).toInt = (run k (State.load image)).index

/-- R166, R167, R169: an image of legal words never faults, from any state that has not faulted: every running state
has a step. -/
def Obligations.LegalImagesNeverFault : Prop :=
  ∀ s, s.faultMark = none → LegalImage s.image →
    NeverFaults s ∧ ∀ k, (run k s).Running → ∃ t, step (run k s) = .next t

/-- R169 (derived in the spec): a run has exactly one of three outcomes: from some clock on it stands in one terminal
state, or from some clock on it stands in one faulted state, or it runs for ever. -/
def Obligations.RunHasOneOfThreeOutcomes : Prop :=
  ∀ s,
    ((∃ k, ∀ n, k ≤ n → run n s = run k s ∧ status (run n s) = .finished) ∨
     (∃ k f, ∀ n, k ≤ n → run n s = run k s ∧ status (run n s) = .faulted f) ∨
     ∀ n, status (run n s) = .running) ∧
    ∀ j k, status (run j s) ≠ .running → status (run k s) ≠ .running → run j s = run k s

/-- R155 (derived in the spec): a block of words behaves the same wherever it stands in the image: while its own run
stays inside the block, the run of the image around it does the same to the registers, at indices moved by the
block's position. -/
def Obligations.CodeIsPositionIndependent : Prop :=
  ∀ (s t : State) before after n,
    t.image = before ++ s.image ++ after → t.regs = s.regs → t.index = s.index + before.length →
    s.faultMark = none → t.faultMark = none → (∀ k, k < n → status (run k s) = .running) →
    (run n t).regs = (run n s).regs ∧
    (run n t).index = (run n s).index + before.length ∧
    ((run n t).faultMark = none ↔ (run n s).faultMark = none)

/-- The hardware presentation (R107, R156, R181, R186; the spec's decision D11) is the machine: for every `BASE_ADDRESS`
and whatever the decoder's unspecified outputs for the zero word (R106, log 15), one clock cycle is one `tick`, with
the `reset` input the reset state of the image, and `n` cycles are the run of `n` clocks. -/
def Obligations.DatapathIsTheMachine : Prop :=
  ∀ cfg junk s, cycle cfg junk true s = s.resetInput ∧ cycle cfg junk false s = tick s ∧
    ∀ n, (cycle cfg junk false)^[n] s = run n s

/-! ## The assembler -/

/-- R84: the branch offset of a resolved label is `target - (current + 1)`, adding `1 + offset` to the branch's index
lands exactly on the label's line; it succeeds whenever the label resolves and the offset fits 16 signed bits, and fails
exactly when the label is absent or the offset does not fit. -/
def Obligations.BranchOffsetLandsOnTheLabel : Prop :=
  ∀ table current label,
    (∀ off, branchOffset table current label = .ok off →
      ∃ target, resolve table label = some target ∧
        off.toInt = (target : Int) - (current + 1) ∧ (current : Int) + 1 + off.toInt = target) ∧
    (∀ target, resolve table label = some target →
      -32768 ≤ (target : Int) - (current + 1) → (target : Int) - (current + 1) ≤ 32767 →
      ∃ off, branchOffset table current label = .ok off ∧ off.toInt = (target : Int) - (current + 1)) ∧
    (resolve table label = none ↔ branchOffset table current label = .error (.error .unresolvedLabel)) ∧
    (branchOffset table current label = .error (.error .immediateOutOfRange) ↔
      ∃ target, resolve table label = some target ∧
        ((target : Int) - (current + 1) < -32768 ∨ 32767 < (target : Int) - (current + 1)))

/-- R77: every mnemonic's operand tokens go to the fields of its row, the second token of `add` to `rs` and the third
to `rt`; `nop` ignores its operands. -/
def Obligations.TokensGoToTheirFields : Prop :=
  ∀ table k label a b c x y z (imm : Imm16) (shamt : Shamt),
    readRegister a = .ok x → readRegister b = .ok y →
    assembleTokens table k ⟨label, "nop", a, b, c⟩ = .ok .nop ∧
    (readRegister c = .ok z →
      assembleTokens table k ⟨label, "add", a, b, c⟩ = .ok (.add x y z)) ∧
    (readShift c = .ok shamt →
      assembleTokens table k ⟨label, "sll", a, b, c⟩ = .ok (.sll x y shamt) ∧
      assembleTokens table k ⟨label, "srl", a, b, c⟩ = .ok (.srl x y shamt)) ∧
    (readImmediate c = .ok imm →
      assembleTokens table k ⟨label, "addi", a, b, c⟩ = .ok (.addi x y imm) ∧
      assembleTokens table k ⟨label, "andi", a, b, c⟩ = .ok (.andi x y imm)) ∧
    (branchOffset table k c = .ok imm →
      assembleTokens table k ⟨label, "beq", a, b, c⟩ = .ok (.beq x y imm) ∧
      assembleTokens table k ⟨label, "bne", a, b, c⟩ = .ok (.bne x y imm))

/-- R79: a decimal literal is an immediate exactly when it is in -32768..32767 and a shift amount exactly when it is in
0..31, with that value; otherwise it is the error the rule names. -/
def Obligations.LiteralRangesAreChecked : Prop :=
  ∀ t v, literalValue t = some v →
    (-32768 ≤ v ∧ v ≤ 32767 → ∃ imm, readImmediate t = .ok imm ∧ imm.toInt = v) ∧
    (v < -32768 ∨ 32767 < v → readImmediate t = .error (.error .immediateOutOfRange)) ∧
    (0 ≤ v ∧ v ≤ 31 → ∃ sh : Shamt, readShift t = .ok sh ∧ (sh.val : Int) = v) ∧
    (v < 0 ∨ 31 < v → readShift t = .error (.error .invalidShiftAmount))

/-- R76: every source line produces exactly one machine word, at the image index equal to its line index, and a label
names the index of the word of its own line. -/
def Obligations.OneWordPerSourceLine : Prop :=
  ∀ cfg prog words, assemble cfg prog = .image words →
    words.length = prog.length ∧
    ∀ (k : Nat) (l : InputLine), prog[k]? = some l →
      (∃ i, assembleLine (labelTable 0 prog) k l = .ok i ∧ words[k]? = some (encode i)) ∧
      ∀ source name, l = .line source → source.label = some name → resolve (labelTable 0 prog) name = some k

/-- R76, R83: assembly answers an image, and so a launch state, exactly when every line assembles and nothing in the
program is undescribed or over a bound, which is unique labels, a program within capacity, lines within the text
bounds, and lines of the described form (these four are the model's refusals, log 17; forms also log 16 and 26). The
image is then the words of the lines in their order. -/
def Obligations.AssemblySucceedsOnCleanPrograms : Prop :=
  ∀ cfg prog,
    ((∃ words, assemble cfg prog = .image words) ↔
      labelsUnique (labelTable 0 prog) = true ∧ prog.length ≤ cfg.progCapacity ∧
        (∀ l ∈ prog, withinTextBounds cfg l = true) ∧ (∀ l ∈ prog, describedLine l = true) ∧
        ∀ (k : Nat) l, prog[k]? = some l → ∃ i, assembleLine (labelTable 0 prog) k l = .ok i) ∧
    (∀ is : List Instr, programRefusals cfg prog = [] → phaseTwo prog = is.map .ok →
      assemble cfg prog = .image (is.map encode)) ∧
    ((∃ s, launch (assemble cfg prog) = some s) ↔ ∃ words, assemble cfg prog = .image words)

/-- R80, R86: a program with an error in any line (a mnemonic outside the fixed set of 8, for one) has no image: the
block never leaves reset; and where nothing in it is undescribed (log 17), that error, with its line, is among the
errors reported (which one is reported is open, N14, log 18; a line that does not tokenize declares no label, log 27). -/
def Obligations.AnyErrorAbortsTheRun : Prop :=
  ∀ cfg (prog : List InputLine) (k : Nat) l ps e,
    prog[k]? = some l → assembleLine (labelTable 0 prog) k l = .error ps → Problem.error e ∈ ps →
    launch (assemble cfg prog) = none ∧
    (programRefusals cfg prog = [] → lineRefusals (phaseTwo prog) = [] →
      ∃ reports, assemble cfg prog = .failed reports ∧ ⟨k, e⟩ ∈ reports)

/-- R87: an assembled image holds only canonical words of the eight instructions, only in-range branch targets, and at
most `PROG_CAPACITY` words. -/
def Obligations.AssembledImagesAreWellFormed : Prop :=
  ∀ cfg prog words, assemble cfg prog = .image words →
    LegalImage words ∧ CanonicalImage words ∧ TargetsInRange words ∧ WithinCapacity cfg words

/-- R85, R87, R92, R166: the run of an assembled image never faults and its cursor never leaves `0..N`. -/
def Obligations.AssembledRunsStayInTheProgram : Prop :=
  ∀ cfg prog words, assemble cfg prog = .image words →
    NeverFaults (State.load words) ∧
    ∀ k, 0 ≤ (run k (State.load words)).index ∧ (run k (State.load words)).index ≤ words.length

/-- Every step and every clock keeps the invariant of a run inside its program, from every state that meets it: no
fault, the image legal with its branch targets in `0..N-1`, the cursor in `0..N` (R85, R87, R166). -/
def Obligations.StepKeepsProgramInvariant : Prop :=
  ∀ s, ProgramInvariant s → (∀ t, step s = .next t → ProgramInvariant t) ∧ ProgramInvariant (tick s)

/-- The reset state, the launch state of every image of legal words with branch targets in range, and so the launch
state of every assembled image, meet the invariant of a run inside its program (R31, R85, R87). -/
def Obligations.LaunchMeetsProgramInvariant : Prop :=
  ProgramInvariant State.reset ∧
  (∀ image, LegalImage image → TargetsInRange image → ProgramInvariant (State.load image)) ∧
  ∀ cfg prog s, launch (assemble cfg prog) = some s → ProgramInvariant s

/-- R88: the listing gives, per line in order, the address `BASE_ADDRESS + 4*i` (the spec's reading D19, log 13) and
the word. -/
def Obligations.ListingGivesAddressAndWord : Prop :=
  ∀ cfg (words : List Word), (listing cfg words).length = words.length ∧
    ∀ (k : Nat) w, words[k]? = some w →
      ∃ address, (listing cfg words)[k]? = some (address, w) ∧
        (address.toNat : Int) = (cfg.baseAddress.toNat + 4 * k) % 2 ^ 32
end

