-- ==== Sys2Proof/Laws/Assembler.lean ====
section
/-! SUPPORT. What each phase of the assembler can do: an image only of lines without problems, one result per line, labels only of lines of the program. -/

namespace Sys2Proof.Machine

/-- An image is the words found, and nothing was refused or reported. -/
theorem settleAssembly_eq_image_iff {refusals : List AsmRefusal} {reports : List AsmReport} {words ws : List Word} :
    settleAssembly refusals reports words = .image ws ↔ refusals = [] ∧ reports = [] ∧ words = ws := by
  cases refusals <;> cases reports <;> simp [settleAssembly]

/-- A program is refused as a whole for one of four reasons, and for no other. -/
theorem programRefusals_eq_nil_iff {cfg : Config} {prog : List InputLine} :
    programRefusals cfg prog = [] ↔
      labelsUnique (labelTable 0 prog) = true ∧ prog.length ≤ cfg.progCapacity ∧
        prog.all (withinTextBounds cfg) = true ∧ prog.all describedLine = true := by
  have one {c : Prop} [Decidable c] {r : AsmRefusal} : (if c then [] else [r]) = [] ↔ c := by
    split <;> simp [*]
  simp only [programRefusals, List.append_eq_nil_iff, one, and_assoc]

/-- What an image says of its program: nothing refused, nothing reported, one word per result. -/
theorem assemble_eq_image_iff {cfg : Config} {prog : List InputLine} {words : List Word} :
    assemble cfg prog = .image words ↔
      programRefusals cfg prog = [] ∧ lineRefusals (phaseTwo prog) = [] ∧
        reportsFrom 0 (phaseTwo prog) = [] ∧ wordsOf (phaseTwo prog) = words := by
  rw [assemble, settleAssembly_eq_image_iff, List.append_eq_nil_iff, and_assoc]

/-- A three-operand line assembles exactly when its three operands do. -/
theorem threeOperands_eq_ok_iff {α β γ : Type} {mk : α → β → γ → Instr} {a : Except Problem α}
    {b : Except Problem β} {c : Except Problem γ} {i : Instr} :
    threeOperands mk a b c = .ok i ↔ ∃ x y z, a = .ok x ∧ b = .ok y ∧ c = .ok z ∧ mk x y z = i := by
  cases a <;> cases b <;> cases c <;> simp [threeOperands]

/-- A line that does not assemble has a problem to show for it. -/
theorem threeOperands_error_ne_nil {α β γ : Type} {mk : α → β → γ → Instr} {a : Except Problem α}
    {b : Except Problem β} {c : Except Problem γ} {ps : List Problem} (h : threeOperands mk a b c = .error ps) :
    ps ≠ [] := by
  cases a <;> cases b <;> cases c <;> simp [threeOperands, problemOf] at h <;> subst h <;> simp

theorem assembleLine_error_ne_nil {table : LabelTable} {k : Nat} {l : InputLine} {ps : List Problem}
    (h : assembleLine table k l = .error ps) : ps ≠ [] := by
  cases l with
  | untokenized n =>
    cases h
    simp
  | line l =>
    simp only [assembleLine, assembleTokens] at h
    split_ifs at h
    all_goals first | exact threeOperands_error_ne_nil h | (cases h; simp)

/-- Phase 2 gives one result per line (R76). -/
theorem length_assembleLines (table : LabelTable) (k : Nat) (ls : List InputLine) :
    (assembleLines table k ls).length = ls.length := by
  induction ls generalizing k with
  | nil => rfl
  | cons l ls ih => simp [assembleLines, ih]

/-- The result at a position is that of the line there, with its own line index. -/
theorem getElem?_assembleLines (table : LabelTable) (k : Nat) (ls : List InputLine) (j : Nat) :
    (assembleLines table k ls)[j]? = ls[j]?.map (assembleLine table (k + j)) := by
  induction ls generalizing k j with
  | nil => simp [assembleLines]
  | cons l ls ih =>
    cases j with
    | zero => simp [assembleLines]
    | succ j =>
      simp only [assembleLines, List.getElem?_cons_succ, ih]
      congr 2
      omega

/-- A label names a line of the program (R76, R81). -/
theorem line_of_mem_labelTable {k : Nat} {ls : List InputLine} {e : Token × Nat} (h : e ∈ labelTable k ls) :
    k ≤ e.2 ∧ e.2 < k + ls.length := by
  induction ls generalizing k with
  | nil => simp [labelTable] at h
  | cons l ls ih =>
    rcases List.mem_append.mp h with h | h
    · have : e.2 = k := by
        cases l with
        | untokenized n => simp [declareLabel] at h
        | line l =>
          cases hl : l.label with
          | none => simp [declareLabel, hl] at h
          | some name =>
            have he : e = (name, k) := by simpa [declareLabel, hl] using h
            rw [he]
      simp only [List.length_cons]
      omega
    · have := ih h
      simp only [List.length_cons]
      omega

/-- A resolved label is in the table (R82). -/
theorem mem_of_resolve {table : LabelTable} {label : Token} {target : Nat} (h : resolve table label = some target) :
    (label, target) ∈ table := by
  obtain ⟨e, he, rfl⟩ := Option.map_eq_some_iff.mp h
  have hl : e.1 = label := by simpa using List.find?_some he
  exact hl ▸ List.mem_of_find?_eq_some he

end Sys2Proof.Machine
end

