-- ==== Sys2Proof/Laws/Decode.lean ====
section
/-! SUPPORT. The fields of a word as numbers, the canonical layouts as numbers, and the fields of the canonical layouts. -/

namespace Sys2Proof

/-! ## Fields as shift and mask on the unsigned value (R104) -/

theorem toNat_opcodeOf (w : Word) : (opcodeOf w).toNat = w.toNat / 2 ^ 26 % 64 := by
  simp [opcodeOf, BitVec.extractLsb'_toNat, Nat.shiftRight_eq_div_pow]

theorem toNat_functOf (w : Word) : (functOf w).toNat = w.toNat % 64 := by
  simp [functOf, BitVec.extractLsb'_toNat]

theorem toNat_imm16Of (w : Word) : (imm16Of w).toNat = w.toNat % 65536 := by
  simp [imm16Of, BitVec.extractLsb'_toNat]

theorem val_rsOf (w : Word) : (rsOf w).val = w.toNat / 2 ^ 21 % 32 := by
  show (w.extractLsb' 21 5).toNat = _
  simp [BitVec.extractLsb'_toNat, Nat.shiftRight_eq_div_pow]

theorem val_rtOf (w : Word) : (rtOf w).val = w.toNat / 2 ^ 16 % 32 := by
  show (w.extractLsb' 16 5).toNat = _
  simp [BitVec.extractLsb'_toNat, Nat.shiftRight_eq_div_pow]

theorem val_rdOf (w : Word) : (rdOf w).val = w.toNat / 2 ^ 11 % 32 := by
  show (w.extractLsb' 11 5).toNat = _
  simp [BitVec.extractLsb'_toNat, Nat.shiftRight_eq_div_pow]

theorem val_shamtOf (w : Word) : (shamtOf w).val = w.toNat / 2 ^ 6 % 32 := by
  show (w.extractLsb' 6 5).toNat = _
  simp [BitVec.extractLsb'_toNat, Nat.shiftRight_eq_div_pow]

/-! ## The canonical layouts as numbers (R62, R63, R70) -/

theorem toNat_fieldWord (i : Fin 32) : (fieldWord i).toNat = i.val := by
  simp [fieldWord]
  omega

/-- Disjoint fields join by addition. -/
theorem or_eq_add {a b k : Nat} (hb : b < 2 ^ k) : (a * 2 ^ k) ||| b = a * 2 ^ k + b := by
  rw [← Nat.shiftLeft_eq, Nat.shiftLeft_add_eq_or_of_lt hb]

theorem toNat_fieldWord_shiftLeft (i : Fin 32) {k : Nat} (hk : k ≤ 21) :
    (fieldWord i <<< k).toNat = i.val * 2 ^ k := by
  have h1 : i.val < 2 ^ 5 := i.isLt
  have h2 : i.val * 2 ^ k < 2 ^ 5 * 2 ^ k := by gcongr
  have h3 : (2 : Nat) ^ 5 * 2 ^ k ≤ 2 ^ 5 * 2 ^ 21 := by gcongr; norm_num
  rw [BitVec.toNat_shiftLeft, toNat_fieldWord, Nat.shiftLeft_eq, Nat.mod_eq_of_lt]
  omega

theorem toNat_packR (rs rt rd shamt : Fin 32) {f : Word} (hf : f.toNat < 64) :
    (packR rs rt rd shamt f).toNat =
      rs.val * 2 ^ 21 + rt.val * 2 ^ 16 + rd.val * 2 ^ 11 + shamt.val * 2 ^ 6 + f.toNat := by
  simp only [packR, BitVec.toNat_or]
  rw [toNat_fieldWord_shiftLeft _ (by omega), toNat_fieldWord_shiftLeft _ (by omega),
    toNat_fieldWord_shiftLeft _ (by omega), toNat_fieldWord_shiftLeft _ (by omega)]
  have e1 := or_eq_add (a := rs.val) (b := rt.val * 2 ^ 16) (k := 21) (by omega)
  have e2 := or_eq_add (a := rs.val * 32 + rt.val) (b := rd.val * 2 ^ 11) (k := 16) (by omega)
  have e3 := or_eq_add (a := rs.val * 1024 + rt.val * 32 + rd.val) (b := shamt.val * 2 ^ 6) (k := 11) (by omega)
  have e4 := or_eq_add (a := rs.val * 32768 + rt.val * 1024 + rd.val * 32 + shamt.val) (b := f.toNat) (k := 6) hf
  rw [e1, show rs.val * 2 ^ 21 + rt.val * 2 ^ 16 = (rs.val * 32 + rt.val) * 2 ^ 16 by omega, e2,
    show (rs.val * 32 + rt.val) * 2 ^ 16 + rd.val * 2 ^ 11 = (rs.val * 1024 + rt.val * 32 + rd.val) * 2 ^ 11 by omega,
    e3,
    show (rs.val * 1024 + rt.val * 32 + rd.val) * 2 ^ 11 + shamt.val * 2 ^ 6 =
      (rs.val * 32768 + rt.val * 1024 + rd.val * 32 + shamt.val) * 2 ^ 6 by omega, e4]

theorem toNat_packI (op : Fin 64) (rs rt : RegIdx) (imm : Imm16) :
    (packI (BitVec.ofNat 32 (op.val * 2 ^ 26)) rs rt imm).toNat =
      op.val * 2 ^ 26 + rs.val * 2 ^ 21 + rt.val * 2 ^ 16 + imm.toNat := by
  have hi := imm.isLt
  have ho := op.isLt
  simp only [packI, BitVec.toNat_or, BitVec.toNat_ofNat]
  rw [toNat_fieldWord_shiftLeft _ (by omega), toNat_fieldWord_shiftLeft _ (by omega),
    Nat.mod_eq_of_lt (by omega : op.val * 2 ^ 26 < 2 ^ 32),
    BitVec.toNat_setWidth_of_le (by omega)]
  have e1 := or_eq_add (a := op.val) (b := rs.val * 2 ^ 21) (k := 26) (by omega)
  have e2 := or_eq_add (a := op.val * 32 + rs.val) (b := rt.val * 2 ^ 16) (k := 21) (by omega)
  have e3 := or_eq_add (a := op.val * 1024 + rs.val * 32 + rt.val) (b := imm.toNat) (k := 16) (by omega)
  rw [e1, show op.val * 2 ^ 26 + rs.val * 2 ^ 21 = (op.val * 32 + rs.val) * 2 ^ 21 by omega, e2,
    show (op.val * 32 + rs.val) * 2 ^ 21 + rt.val * 2 ^ 16 = (op.val * 1024 + rs.val * 32 + rt.val) * 2 ^ 16 by omega,
    e3]

/-! ## The fields of the canonical layouts -/

section PackR
variable (rs rt rd shamt : Fin 32) {f : Word} (hf : f.toNat < 64)
include hf

theorem opcodeOf_packR : opcodeOf (packR rs rt rd shamt f) = 0#6 := by
  apply BitVec.eq_of_toNat_eq
  rw [toNat_opcodeOf, toNat_packR _ _ _ _ hf]
  show _ = 0
  omega

theorem functOf_packR : functOf (packR rs rt rd shamt f) = f.setWidth 6 := by
  apply BitVec.eq_of_toNat_eq
  rw [toNat_functOf, toNat_packR _ _ _ _ hf, BitVec.toNat_setWidth]
  omega

theorem rsOf_packR : rsOf (packR rs rt rd shamt f) = rs := by
  apply Fin.ext
  rw [val_rsOf, toNat_packR _ _ _ _ hf]
  omega

theorem rtOf_packR : rtOf (packR rs rt rd shamt f) = rt := by
  apply Fin.ext
  rw [val_rtOf, toNat_packR _ _ _ _ hf]
  omega

theorem rdOf_packR : rdOf (packR rs rt rd shamt f) = rd := by
  apply Fin.ext
  rw [val_rdOf, toNat_packR _ _ _ _ hf]
  omega

theorem shamtOf_packR : shamtOf (packR rs rt rd shamt f) = shamt := by
  apply Fin.ext
  rw [val_shamtOf, toNat_packR _ _ _ _ hf]
  omega

end PackR

section PackI
variable (op : Fin 64) (rs rt : RegIdx) (imm : Imm16)

theorem opcodeOf_packI : opcodeOf (packI (BitVec.ofNat 32 (op.val * 2 ^ 26)) rs rt imm) = BitVec.ofNat 6 op.val := by
  apply BitVec.eq_of_toNat_eq
  have hi := imm.isLt
  rw [toNat_opcodeOf, toNat_packI, BitVec.toNat_ofNat]
  omega

theorem rsOf_packI : rsOf (packI (BitVec.ofNat 32 (op.val * 2 ^ 26)) rs rt imm) = rs := by
  apply Fin.ext
  have hi := imm.isLt
  rw [val_rsOf, toNat_packI]
  omega

theorem rtOf_packI : rtOf (packI (BitVec.ofNat 32 (op.val * 2 ^ 26)) rs rt imm) = rt := by
  apply Fin.ext
  have hi := imm.isLt
  rw [val_rtOf, toNat_packI]
  omega

theorem imm16Of_packI : imm16Of (packI (BitVec.ofNat 32 (op.val * 2 ^ 26)) rs rt imm) = imm := by
  apply BitVec.eq_of_toNat_eq
  have hi := imm.isLt
  rw [toNat_imm16Of, toNat_packI]
  omega

end PackI

/-! ## Classification -/

/-- A word whose opcode is not 0 is not the zero word. -/
theorem ne_zero_of_opcodeOf {w : Word} {op : BitVec 6} (h : opcodeOf w = op) (hop : op ≠ 0#6) : w ≠ 0#32 := by
  rintro rfl
  exact hop (h.symm.trans (by decide))

/-- A word whose funct is not 0 is not the zero word. -/
theorem ne_zero_of_functOf {w : Word} {f : BitVec 6} (h : functOf w = f) (hf : f ≠ 0#6) : w ≠ 0#32 := by
  rintro rfl
  exact hf (h.symm.trans (by decide))

/-- A word has an instruction or is illegal, never both (R72, R74). -/
theorem decode_isOk_iff {w : Word} : (∃ i, decode w = .ok i) ↔ classify w ≠ .illegal := by
  unfold decode
  cases h : classify w <;> simp

/-- The decoder rejects exactly the illegal words (R72). -/
theorem decode_error_iff {w : Word} : (∃ e, decode w = .error e) ↔ classify w = .illegal := by
  unfold decode
  cases h : classify w <;> simp

/-- The decoded instruction is of the word's class (R102, R107). -/
theorem cls_of_decode {w : Word} {i : Instr} (h : decode w = .ok i) : i.cls = classify w := by
  unfold decode at h
  cases hc : classify w <;> rw [hc] at h <;> simp at h <;> subst h <;> rfl

end Sys2Proof
end

