-- ==== Sys2Proof/Laws/State.lean ====
section
/-! SUPPORT. One lemma per field per update of the state, true by unfolding, so that no proof unfolds a record update; and reading a register after a write. -/

namespace Sys2Proof.Machine

variable (s : State) (r : RegIdx) (v w : Word) (d : Int) (f : Fault) (o : Option (RegIdx × Word)) (image : List Word)

@[simp] theorem writeReg_regs : (s.writeReg r v).regs = s.regs.set r v := rfl
@[simp] theorem writeReg_index : (s.writeReg r v).index = s.index := rfl
@[simp] theorem writeReg_image : (s.writeReg r v).image = s.image := rfl
@[simp] theorem writeReg_faultMark : (s.writeReg r v).faultMark = s.faultMark := rfl

@[simp] theorem advance_regs : (s.advance d).regs = s.regs := rfl
@[simp] theorem advance_index : (s.advance d).index = s.index + 1 + d := rfl
@[simp] theorem advance_image : (s.advance d).image = s.image := rfl
@[simp] theorem advance_faultMark : (s.advance d).faultMark = s.faultMark := rfl

@[simp] theorem latchFault_regs : (s.latchFault f).regs = s.regs := rfl
@[simp] theorem latchFault_index : (s.latchFault f).index = s.index := rfl
@[simp] theorem latchFault_image : (s.latchFault f).image = s.image := rfl
@[simp] theorem latchFault_faultMark : (s.latchFault f).faultMark = some f := rfl

@[simp] theorem resetInput_regs : s.resetInput.regs = Vector.replicate 32 0 := rfl
@[simp] theorem resetInput_index : s.resetInput.index = 0 := rfl
@[simp] theorem resetInput_image : s.resetInput.image = s.image := rfl
@[simp] theorem resetInput_faultMark : s.resetInput.faultMark = none := rfl

@[simp] theorem load_regs : (State.load image).regs = Vector.replicate 32 0 := rfl
@[simp] theorem load_index : (State.load image).index = 0 := rfl
@[simp] theorem load_image : (State.load image).image = image := rfl
@[simp] theorem load_faultMark : (State.load image).faultMark = none := rfl

@[simp] theorem applyWrite_none : s.applyWrite none = s := rfl
@[simp] theorem applyWrite_some : s.applyWrite (some (r, v)) = s.writeReg r v := rfl

@[simp] theorem applyWrite_index : (s.applyWrite o).index = s.index := by cases o <;> rfl
@[simp] theorem applyWrite_image : (s.applyWrite o).image = s.image := by cases o <;> rfl
@[simp] theorem applyWrite_faultMark : (s.applyWrite o).faultMark = s.faultMark := by cases o <;> rfl

@[simp] theorem readReg_advance (q : RegIdx) : (s.advance d).readReg q = s.readReg q := rfl
@[simp] theorem readReg_latchFault (q : RegIdx) : (s.latchFault f).readReg q = s.readReg q := rfl

@[simp] theorem readReg_writeReg_self : (s.writeReg r v).readReg r = v := by
  simp [State.readReg]

theorem readReg_writeReg_of_ne {q : RegIdx} (h : q ≠ r) : (s.writeReg r v).readReg q = s.readReg q := by
  have hv : r.val ≠ q.val := fun e => h (Fin.ext e.symm)
  simp [State.readReg, Vector.getElem_set_ne, hv]

/-- Writing back the value a register holds changes nothing. -/
theorem writeReg_readReg : s.writeReg r (s.readReg r) = s := by
  simp [State.writeReg, State.readReg]

/-- Two register files that read alike are equal. -/
theorem regs_ext {s t : State} (h : ∀ q, t.readReg q = s.readReg q) : t.regs = s.regs :=
  Vector.ext fun i hi => h ⟨i, hi⟩

end Sys2Proof.Machine
end

