-- ==== Sys2Proof/Laws/Ops.lean ====
section
/-! SUPPORT. What each shared operation can do: the fetch, the end of a step, the placing of a word. -/

namespace Sys2Proof.Machine

/-- The fetch reads a word exactly at an index of the image (R46, R144). -/
theorem fetch_eq_some_iff {s : State} {w : Word} :
    s.fetch = some w ↔ 0 ≤ s.index ∧ s.image[s.index.toNat]? = some w := by
  by_cases h : 0 ≤ s.index <;> simp [State.fetch, h]

/-- The fetch reads a word in the running states only (R144, R150). -/
theorem fetch_isSome_iff_running {s : State} : s.fetch.isSome ↔ s.Running := by
  by_cases h : 0 ≤ s.index
  · simp [State.fetch, h, State.Running]
  · simp [State.fetch, h, State.Running]

/-- No word is fetched in the terminal states, and only there (R46, R150). -/
theorem fetch_eq_none_iff_terminal {s : State} : s.fetch = none ↔ s.Terminal := by
  rw [← Option.not_isSome_iff_eq_none, fetch_isSome_iff_running]
  simp only [State.Running, State.Terminal]
  omega

/-- A running state fetches a word. -/
theorem exists_fetch_of_running {s : State} (h : s.Running) : ∃ w, s.fetch = some w :=
  Option.isSome_iff_exists.mp (fetch_isSome_iff_running.mpr h)

/-- A fetch finds the state running. -/
theorem running_of_fetch {s : State} {w : Word} (h : s.fetch = some w) : s.Running :=
  fetch_isSome_iff_running.mp (by simp [h])

/-- The fetched word stands in the image. -/
theorem mem_of_fetch {s : State} {w : Word} (h : s.fetch = some w) : w ∈ s.image :=
  List.mem_of_getElem? (fetch_eq_some_iff.mp h).2

/-- The whole effect of the end of a step: the one write, the cursor, nothing else. -/
theorem retire_eq (o : Option (RegIdx × Word)) (d : Int) (s : State) :
    retire o d s = .next ((s.applyWrite o).advance d) := rfl

/-- The image with a word placed in it has that word there. -/
theorem getElem?_placeWord (image : List Word) (k : Nat) (w : Word) :
    (placeWord image k w)[k]? = some w := by
  by_cases h : k < image.length
  · simp [placeWord, h]
  · simp [placeWord, h, List.getElem?_append]

/-- Placing a word leaves every other word of the image alone. -/
theorem getElem?_placeWord_of_ne (image : List Word) (w : Word) {j k : Nat} (hj : j < image.length) (hne : j ≠ k) :
    (placeWord image k w)[j]? = image[j]? := by
  by_cases h : k < image.length
  · simp [placeWord, h, hne.symm]
  · simp [placeWord, h, List.getElem?_append, hj]

/-- A state with a word placed at its fetch fetches that word. -/
theorem fetch_placeAtFetch (s : State) (w : Word) : (s.placeAtFetch w).fetch = some w := by
  rw [fetch_eq_some_iff]
  exact ⟨Int.natCast_nonneg _, getElem?_placeWord s.image s.index.toNat w⟩

end Sys2Proof.Machine
end

