-- ==== Sys2Proof/Laws/Exec.lean ====
section
/-! SUPPORT. What every instruction can do, said once: at most one register write and the cursor update (R145, R146). -/

namespace Sys2Proof.Machine

/-- Every instruction is the end of a step with its own write and delta (R145). -/
theorem exec_eq_retire (i : Instr) (s : State) : exec i s = retire (writeOf s i) (deltaOf s i) s := by
  cases i <;> rfl

/-- The inversion of a meaning: the next state it answers. -/
theorem exec_next_iff {i : Instr} {s t : State} :
    exec i s = .next t ↔ t = (s.applyWrite (writeOf s i)).advance (deltaOf s i) := by
  rw [exec_eq_retire, retire_eq, Host.Outcome.next.injEq, eq_comm]

/-- The branch delta is a signed 16-bit number (R139). -/
theorem deltaOf_bounds (s : State) (i : Instr) : -32768 ≤ deltaOf s i ∧ deltaOf s i ≤ 32767 := by
  have signed_bounds (v : Imm16) : -32768 ≤ v.toInt ∧ v.toInt ≤ 32767 := by
    have h1 := BitVec.le_toInt v
    have h2 := BitVec.toInt_lt (x := v)
    omega
  have branch_bounds (c : Bool) (v : Imm16) : -32768 ≤ branchDelta c v ∧ branchDelta c v ≤ 32767 := by
    cases c with
    | true => exact signed_bounds v
    | false => simp [branchDelta]
  cases i with
  | beq rs rt off => exact branch_bounds (equal32 (s.readReg rt) (s.readReg rs)) off
  | bne rs rt off => exact branch_bounds (differ32 (s.readReg rt) (s.readReg rs)) off
  | _ => simp [deltaOf]

end Sys2Proof.Machine
end

