-- ==== Sys2Proof/Laws/PerInstr.lean ====
section
/-! SUPPORT. Statements about every instruction as syntax, one lemma per constructor. -/

/-- The canonical word of an instruction has the instruction's class, but for the one collision of the encoding (R70, R91). -/
def Sys2Proof.Laws.EncodeClass.Statement (i : Sys2Proof.Instr) : Prop :=
  i.WellFormed = true → Sys2Proof.classify (Sys2Proof.encode i) = i.cls

namespace Sys2Proof.Laws.EncodeClass

/-- The class of an I-type-like layout is its opcode's (R68). -/
theorem classify_packI (op : Fin 64) (hop : BitVec.ofNat 6 op.val ≠ 0#6) (rs rt : RegIdx) (imm : Imm16) :
    classify (packI (BitVec.ofNat 32 (op.val * 2 ^ 26)) rs rt imm) =
      if op = 8 then .addi else if op = 12 then .andi else if op = 4 then .beq else if op = 5 then .bne else .illegal := by
  have h := opcodeOf_packI op rs rt imm
  rw [classify, if_neg (ne_zero_of_opcodeOf h hop), h, if_neg hop]
  revert hop
  clear h
  revert op
  decide

theorem nop : Statement .nop := fun _ => by decide

theorem add (rd rs rt : RegIdx) : Statement (.add rd rs rt) := fun _ => by
  have hf : (0x20#32).toNat < 64 := by decide
  have h := functOf_packR rs rt rd 0 hf
  rw [encode, classify, if_neg (ne_zero_of_functOf h (by decide)), if_pos (opcodeOf_packR rs rt rd 0 hf), h]
  rfl

theorem sll (rd rt : RegIdx) (shamt : Shamt) : Statement (.sll rd rt shamt) := fun hw => by
  have hf : (0x00#32).toNat < 64 := by decide
  have hne : packR 0 rt rd shamt 0x00#32 ≠ 0#32 := by
    intro h0
    have h1 := rdOf_packR 0 rt rd shamt hf
    have h2 := rtOf_packR 0 rt rd shamt hf
    have h3 := shamtOf_packR 0 rt rd shamt hf
    rw [h0] at h1 h2 h3
    subst h1 h2 h3
    exact absurd hw (by decide)
  rw [encode, classify, if_neg hne, if_pos (opcodeOf_packR 0 rt rd shamt hf), functOf_packR 0 rt rd shamt hf]
  rfl

theorem srl (rd rt : RegIdx) (shamt : Shamt) : Statement (.srl rd rt shamt) := fun _ => by
  have hf : (0x02#32).toNat < 64 := by decide
  have h := functOf_packR 0 rt rd shamt hf
  rw [encode, classify, if_neg (ne_zero_of_functOf h (by decide)), if_pos (opcodeOf_packR 0 rt rd shamt hf), h]
  rfl

theorem addi (rt rs : RegIdx) (imm : Imm16) : Statement (.addi rt rs imm) :=
  fun _ => classify_packI 8 (by decide) rs rt imm

theorem andi (rt rs : RegIdx) (imm : Imm16) : Statement (.andi rt rs imm) :=
  fun _ => classify_packI 12 (by decide) rs rt imm

theorem beq (rs rt : RegIdx) (off : Imm16) : Statement (.beq rs rt off) :=
  fun _ => classify_packI 4 (by decide) rs rt off

theorem bne (rs rt : RegIdx) (off : Imm16) : Statement (.bne rs rt off) :=
  fun _ => classify_packI 5 (by decide) rs rt off

end Sys2Proof.Laws.EncodeClass
end

