-- ==== Sys2Proof/Laws/Step.lean ====
section
/-! SUPPORT. What one step can do: the four ways a step goes, and the cases of a step that answers a next state. -/

namespace Sys2Proof.Machine

theorem step_of_marked {s : State} {f : Fault} (h : s.faultMark = some f) : step s = .fault f := by
  simp [step, h]

theorem step_of_no_fetch {s : State} (hm : s.faultMark = none) (h : s.fetch = none) :
    step s = .refused .runEnded := by
  simp [step, hm, fetchAndExecute, h]

theorem step_of_fetch {s : State} {w : Word} (hm : s.faultMark = none) (h : s.fetch = some w) :
    step s = executeWord w s := by
  simp [step, hm, fetchAndExecute, h]

/-- Every step is one of four: a faulted state, the end of the run, an illegal word, a legal instruction. -/
theorem step_outcomes (s : State) :
    (∃ f, s.faultMark = some f ∧ step s = .fault f) ∨
    (s.faultMark = none ∧ s.fetch = none ∧ step s = .refused .runEnded) ∨
    (∃ w, s.faultMark = none ∧ s.fetch = some w ∧ classify w = .illegal ∧
      step s = .fault (.illegalWord s.index w)) ∨
    (∃ w i, s.faultMark = none ∧ s.fetch = some w ∧ decode w = .ok i ∧ step s = exec i s) := by
  cases hm : s.faultMark with
  | some f => exact .inl ⟨f, rfl, step_of_marked hm⟩
  | none =>
    cases hf : s.fetch with
    | none => exact .inr (.inl ⟨rfl, rfl, step_of_no_fetch hm hf⟩)
    | some w =>
      cases hd : decode w with
      | error e =>
        refine .inr (.inr (.inl ⟨w, rfl, rfl, decode_error_iff.mp ⟨e, hd⟩, ?_⟩))
        rw [step_of_fetch hm hf, executeWord, hd]
        rfl
      | ok i =>
        refine .inr (.inr (.inr ⟨w, i, rfl, rfl, hd, ?_⟩))
        rw [step_of_fetch hm hf, executeWord, hd]

/-- A step that answers a next state ran a legal instruction. -/
theorem step_next_cases {s t : State} (h : step s = .next t) :
    ∃ w i, s.faultMark = none ∧ s.fetch = some w ∧ decode w = .ok i ∧
      t = (s.applyWrite (writeOf s i)).advance (deltaOf s i) := by
  obtain ⟨f, -, e⟩ | ⟨-, -, e⟩ | ⟨w, -, -, -, e⟩ | ⟨w, i, hm, hf, hd, e⟩ := step_outcomes s
  · simp [e] at h
  · simp [e] at h
  · simp [e] at h
  · exact ⟨w, i, hm, hf, hd, exec_next_iff.mp (e ▸ h)⟩

end Sys2Proof.Machine
end

