-- ==== Sys2Proof/Laws/Run.lean ====
section
/-! SUPPORT. What one clock of the run can do, and how runs compose. -/

namespace Sys2Proof.Machine

theorem tick_of_next {s t : State} (h : step s = .next t) : tick s = t := by simp [tick, h]
theorem tick_of_fault {s : State} {f : Fault} (h : step s = .fault f) : tick s = s.latchFault f := by simp [tick, h]
theorem tick_of_refused {s : State} {r : Refusal} (h : step s = .refused r) : tick s = s := by simp [tick, h]

/-- A faulted state holds (R156, R166). -/
theorem tick_of_marked {s : State} {f : Fault} (h : s.faultMark = some f) : tick s = s := by
  rw [tick_of_fault (step_of_marked h), State.latchFault, ← h]

/-- A terminal state holds (R150, R156). -/
theorem tick_of_no_fetch {s : State} (hm : s.faultMark = none) (h : s.fetch = none) : tick s = s :=
  tick_of_refused (step_of_no_fetch hm h)

/-- Every clock holds the state, latches the fault of an illegal word, or runs a legal instruction. -/
theorem tick_cases (s : State) :
    (tick s = s ∧ (s.faultMark ≠ none ∨ s.fetch = none)) ∨
    (∃ w, s.faultMark = none ∧ s.fetch = some w ∧ classify w = .illegal ∧
      tick s = s.latchFault (.illegalWord s.index w)) ∨
    (∃ w i, s.faultMark = none ∧ s.fetch = some w ∧ decode w = .ok i ∧
      tick s = (s.applyWrite (writeOf s i)).advance (deltaOf s i)) := by
  obtain ⟨f, hm, -⟩ | ⟨hm, hf, -⟩ | ⟨w, hm, hf, hc, e⟩ | ⟨w, i, hm, hf, hd, e⟩ := step_outcomes s
  · exact .inl ⟨tick_of_marked hm, .inl (by simp [hm])⟩
  · exact .inl ⟨tick_of_no_fetch hm hf, .inr hf⟩
  · exact .inr (.inl ⟨w, hm, hf, hc, tick_of_fault e⟩)
  · refine .inr (.inr ⟨w, i, hm, hf, hd, tick_of_next (e.trans ?_)⟩)
    rw [exec_eq_retire, retire_eq]

@[simp] theorem run_zero (s : State) : run 0 s = s := rfl
theorem run_succ (k : Nat) (s : State) : run (k + 1) s = run k (tick s) := rfl

theorem run_add (j k : Nat) (s : State) : run (j + k) s = run k (run j s) := by
  induction j generalizing s with
  | zero => simp
  | succ j ih => rw [Nat.succ_add, run_succ, run_succ, ih]

/-- The last clock of a run, taken off the end. -/
theorem run_succ_tick (k : Nat) (s : State) : run (k + 1) s = tick (run k s) := run_add k 1 s

/-- A state that one clock holds is held for ever. -/
theorem run_of_tick_eq {s : State} (h : tick s = s) (k : Nat) : run k s = s := by
  induction k with
  | zero => rfl
  | succ k ih => rw [run_succ, h, ih]

end Sys2Proof.Machine
end

