-- ==== Sys2Proof/Tests/Slice0.lean ====
section
/-! SUPPORT. Tests: expected results are the spec's own (`spec/95_test_vectors.md`, R111, R112), or the words written out from R61 to R69; and for every statement with hypotheses a witness that meets them. -/

namespace Sys2Proof.Tests
open Sys2Proof Sys2Proof.Machine

/-! ## Helpers -/

/-- Whether a step answers a next state with a property. -/
def nextIs (o : StepResult) (p : State → Bool) : Bool :=
  match o with
  | .next t => p t
  | _ => false

/-- Whether a step answers a fault. -/
def faultIs (o : StepResult) (f : Fault) : Bool :=
  match o with
  | .fault g => g == f
  | _ => false

/-- Whether a step answers a refusal. -/
def refusalIs (o : StepResult) (r : Refusal) : Bool :=
  match o with
  | .refused q => q == r
  | _ => false

/-- The start state of a single-instruction vector: `index = 10`, `w` the last word of the image, two registers set. -/
def at10 (w : Word) (r₁ : RegIdx) (v₁ : Word) (r₂ : RegIdx) (v₂ : Word) : State :=
  ({ State.load (List.replicate 10 0 ++ [w]) with index := 10 }.writeReg r₁ v₁).writeReg r₂ v₂

/-- Whether the step of such a state writes `v` to `r` and goes to index `k`. -/
def writes (s : State) (r : RegIdx) (v : Word) (k : Int) : Bool :=
  nextIs (step s) fun t => t == { s.writeReg r v with index := k }

/-- Whether the step of such a state goes to index `k` and changes nothing else. -/
def moves (s : State) (k : Int) : Bool :=
  nextIs (step s) fun t => t == { s with index := k }

/-! ## Well-formedness: the one ill-formed term -/

theorem test_wellFormed_refuses_sll_zero : (Instr.sll 0 0 0).WellFormed = false := by decide
theorem test_wellFormed_neighbours :
    (Instr.sll 0 0 1).WellFormed = true ∧ (Instr.sll 0 1 0).WellFormed = true ∧ (Instr.sll 1 0 0).WellFormed = true := by
  decide

/-! ## Decoding: words from R61 to R69, fields separated by hand (95 section 2.1) -/

theorem test_decode_nop : decode 0b000000_00000_00000_00000_00000_000000#32 = .ok .nop := by decide
theorem test_decode_add :
    decode 0b000000_01001_01010_01000_00000_100000#32 = .ok (.add 8 9 10) ∧
    decode 0b000000_00000_00000_00000_00000_100000#32 = .ok (.add 0 0 0) ∧
    decode 0b000000_01010_01011_01101_11111_100000#32 = .ok (.add 13 10 11) := by decide
theorem test_decode_sll :
    decode 0b000000_00000_01001_01000_11111_000000#32 = .ok (.sll 8 9 31) ∧
    decode 0b000000_00000_00000_00000_00001_000000#32 = .ok (.sll 0 0 1) ∧
    decode 0b000000_11111_01001_01010_00100_000000#32 = .ok (.sll 10 9 4) := by decide
theorem test_decode_srl :
    decode 0b000000_00000_01001_01001_11111_000010#32 = .ok (.srl 9 9 31) ∧
    decode 0b000000_00000_00000_00000_00000_000010#32 = .ok (.srl 0 0 0) := by decide
theorem test_decode_addi :
    decode 0b001000_00000_01000_0000000000000101#32 = .ok (.addi 8 0 5) ∧
    decode 0b001000_11111_11111_1000000000000000#32 = .ok (.addi 31 31 0x8000) := by decide
theorem test_decode_andi :
    decode 0b001100_01001_01000_1111111100000000#32 = .ok (.andi 8 9 0xFF00) ∧
    decode 0b001100_00000_00000_0000000000000000#32 = .ok (.andi 0 0 0) := by decide
theorem test_decode_beq :
    decode 0b000100_10000_10001_0000000000000010#32 = .ok (.beq 16 17 2) ∧
    decode 0b000100_11111_11111_0111111111111111#32 = .ok (.beq 31 31 0x7FFF) := by decide
theorem test_decode_bne :
    decode 0b000101_01001_01000_1111111111111110#32 = .ok (.bne 9 8 0xFFFE) ∧
    decode 0b000101_00000_00000_0000000000000000#32 = .ok (.bne 0 0 0) := by decide

/-- 95 section 2.2. -/
theorem test_illegal_words :
    ([0x00000001, 0x00000003, 0x00000008, 0x03E00008, 0x0000000C, 0x00000021, 0x00000022, 0x00000025, 0x0000002A,
      0x0000003F, 0x04000000, 0x08000000, 0x0C000000, 0x18000000, 0x1C000000, 0x24000000, 0x28000000, 0x34000000,
      0x3C010000, 0x8C000000, 0xAC000000, 0xFFFFFFFF] : List Word).all (fun w => classify w == .illegal) = true := by
  decide
theorem test_reject_names :
    decode 0x0000000C#32 = .error (.unassignedFunct 0x0C) ∧ decode 0x8C000000#32 = .error (.unassignedOpcode 0x23) := by
  decide

/-- R111's words are the canonical words of their instructions. -/
theorem test_encode_sample :
    encode (.addi 8 0 5) = 0x20080005#32 ∧ encode (.addi 9 9 1) = 0x21290001#32 ∧
    encode (.bne 9 8 0xFFFE) = 0x1528FFFE#32 ∧ encode (.add 13 10 11) = 0x014B6820#32 ∧
    encode (.sll 10 9 4) = 0x00095100#32 ∧ encode (.srl 9 8 28) = 0x00084F02#32 ∧
    encode (.andi 12 8 0xFF00) = 0x310CFF00#32 ∧ encode (.beq 16 17 2) = 0x12110002#32 := by decide
theorem test_canonical :
    isCanonical 0x014B6FE0#32 = false ∧ isCanonical 0x014B6820#32 = true ∧ isCanonical 0x03E95100#32 = false := by decide

/-! ## The instructions (95 section 3) -/

theorem test_nop : moves (at10 0x00000000 0 7 0 7) 11 = true := by decide
theorem test_add_wraps : writes (at10 0x012A4020 9 0x7FFFFFFF 10 1) 8 0x80000000 11 = true := by decide
theorem test_add_zero_register : writes (at10 0x00000020 0 5 0 5) 0 10 11 = true := by decide
theorem test_sll_loses_bits : writes (at10 0x000948C0 9 0x10000001 9 0x10000001) 9 0x80000008 11 = true := by decide
theorem test_sll_ignores_rs : writes (at10 0x03E95100 9 0xF 31 0x55) 10 0xF0 11 = true := by decide
theorem test_srl_fills_zero : writes (at10 0x000947C2 9 0xDEADBEEF 9 0xDEADBEEF) 8 1 11 = true := by decide
theorem test_srl_by_zero : writes (at10 0x00094002 9 0xDEADBEEF 9 0xDEADBEEF) 8 0xDEADBEEF 11 = true := by decide
theorem test_addi_negative : writes (at10 0x2128FFFF 9 0x80000000 9 0x80000000) 8 0x7FFFFFFF 11 = true := by decide
theorem test_addi_in_place : writes (at10 0x21290001 9 4 9 4) 9 5 11 = true := by decide
theorem test_andi_sign_extends : writes (at10 0x31288000 9 0x12345678 9 0x12345678) 8 0x12340000 11 = true := by decide
theorem test_andi_positive_mask : writes (at10 0x31287FFF 9 0xFFFFFFFF 9 0xFFFFFFFF) 8 0x7FFF 11 = true := by decide
theorem test_beq_backward : moves (at10 0x11088000 8 0x7B 8 0x7B) (-32757) = true := by decide
theorem test_beq_not_taken : moves (at10 0x11090003 8 0x80000000 9 0) 11 = true := by decide
theorem test_bne_one_bit : moves (at10 0x15090005 8 0x80000000 9 0) 16 = true := by decide
theorem test_bne_same_register : moves (at10 0x17FF8000 31 1 31 1) 11 = true := by decide

/-! ## The step and the run -/

/-- P8: the illegal word faults at its index; nothing is written and the third word never runs. -/
theorem test_illegal_faults :
    faultIs (step { State.load [0x20080001, 0x00000025, 0x20090001] with index := 1 }) (.illegalWord 1 0x00000025) = true ∧
    (run 5 (State.load [0x20080001, 0x00000025, 0x20090001])).faultMark = some (.illegalWord 1 0x00000025) ∧
    (run 5 (State.load [0x20080001, 0x00000025, 0x20090001])).readReg 8 = 1 ∧
    (run 5 (State.load [0x20080001, 0x00000025, 0x20090001])).readReg 9 = 0 := by decide
/-- P6a, P6b: a branch out of the program ends the run normally. -/
theorem test_branch_out :
    (run 3 (State.load [0x1000FFFD])).index = -2 ∧ status (run 3 (State.load [0x1000FFFD])) = .finished ∧
    (run 3 (State.load [0x10007FFF])).index = 32768 ∧ status (run 3 (State.load [0x10007FFF])) = .finished := by decide
/-- R112 and P10. -/
theorem test_nop_program :
    status (run 1 (State.load [0])) = .finished ∧ (run 1 (State.load [0])).index = 1 ∧
    refusalIs (step (State.load [])) .runEnded = true := by decide
/-- Section 3.9. -/
theorem test_pc :
    pc ⟨0, 9, 17, 80, 20⟩ { State.reset with index := -2 } = 0xFFFFFFF8 ∧
    pc ⟨0, 9, 17, 80, 20⟩ { State.reset with index := 32768 } = 0x00020000 := by decide
theorem test_trace :
    trace 3 (State.load [0x20080005, 0x00000000]) = [⟨0, .addi, some (8, 5)⟩, ⟨1, .nop, none⟩] := by decide
theorem test_placed_word :
    decodeTableWord 32 0x20080005 = some (.addi 8 0 5) ∧
    nextIs (step (State.reset.withFetchWord 32 0x20080005)) (fun t => t.readReg 8 == 5 && t.index == 1) = true := by decide
theorem test_datapath_cycle :
    cycle ⟨0, 9, 17, 80, 20⟩ ⟨.bne, 1, 2, 3, 4, 5, true⟩ false (at10 0 0 7 0 7) = tick (at10 0 0 7 0 7) ∧
    cycle ⟨0, 9, 17, 80, 20⟩ ⟨.bne, 1, 2, 3, 4, 5, true⟩ false (at10 0x11090003 8 7 9 7) =
      tick (at10 0x11090003 8 7 9 7) := by decide

/-! ## The assembler (95 sections 1 and 4) -/

/-- A line of three operands without a label. -/
def ln (m a b c : Token) : InputLine := .line ⟨none, m, a, b, c⟩

/-- A line that declares a label. -/
def labelled (l m a b c : Token) : InputLine := .line ⟨some l, m, a, b, c⟩

/-- Parameters large enough for the examples. -/
def cfg0 : Config := ⟨0, 9, 17, 80, 20⟩

/-- The source's end-to-end example (S2.6). -/
def countToFive : List InputLine :=
  [ln "addi" "$t0" "$zero" "5", ln "addi" "$t1" "$zero" "0", labelled "loop" "addi" "$t1" "$t1" "1",
   ln "bne" "$t1" "$t0" "loop"]

theorem test_assemble_count_to_five :
    assemble cfg0 countToFive = .image [0x20080005, 0x20090000, 0x21290001, 0x1528FFFE] := by decide
theorem test_assemble_errors :
    assemble cfg0 [ln "foo" "$t0" "$t1" "$t2"] = .failed [⟨0, .unknownOpcode⟩] ∧
    assemble cfg0 [ln "add" "$t0" "$t1" "$q9"] = .failed [⟨0, .invalidRegister⟩] ∧
    assemble cfg0 [ln "nop" "" "" "", ln "addi" "$t0" "$zero" "32768"] = .failed [⟨1, .immediateOutOfRange⟩] ∧
    assemble cfg0 [ln "srl" "$t0" "$t0" "-1"] = .failed [⟨0, .invalidShiftAmount⟩] ∧
    assemble cfg0 [ln "beq" "$t0" "$t1" "nowhere"] = .failed [⟨0, .unresolvedLabel⟩] ∧
    assemble cfg0 [.untokenized 7] = .failed [⟨0, .parseError⟩] := by decide
theorem test_assemble_refusals :
    assemble cfg0 [ln "addi" "$t0" "$zero" "0x10"] = .refused [.undescribedLiteral] ∧
    assemble cfg0 [labelled "a" "nop" "" "" "", labelled "a" "nop" "" "" ""] = .refused [.duplicateLabel] ∧
    assemble cfg0 (List.replicate 10 (ln "nop" "" "" "")) = .refused [.overCapacity] ∧
    assemble cfg0 [ln "nop" "averyveryverylongtoken" "" ""] = .refused [.overlongText] := by decide
/-- N10, N11, D18: letter case, commas, comments, blank and label-only lines, other spellings of a register, the empty
label. -/
theorem test_assemble_undescribed_forms :
    ([ln "ADD" "$t0" "$t1" "$t2", ln "add" "$t0," "$t1," "$t2", ln "nop" "#" "" "", ln "" "" "" "",
      labelled "loop" "" "" "" "", ln "add" "$8" "$t1" "$t2", ln "sll" "t0" "$t1" "1", ln "addi" "$s8" "$t1" "1",
      ln "beq" "$T0" "$t1" "l", ln "add" "$t0" "$t1" "10", labelled "" "nop" "" "" "",
      ln "nop" "a\r" "" "", labelled "a\nb" "nop" "" "" ""] : List InputLine).all
      (fun l => describedLine l == false) = true ∧
    assemble cfg0 [ln "ADD" "$t0" "$t1" "$t2"] = .refused [.undescribedForm] ∧
    assemble cfg0 [labelled "" "beq" "$t0" "$t1" ""] = .refused [.undescribedForm] ∧
    assemble cfg0 [ln "beq" "$t0" "$t1" ""] = .failed [⟨0, .unresolvedLabel⟩] := by decide
/-- R78, R86: a string that is no spelling of a register is InvalidRegister. -/
theorem test_assemble_unknown_registers :
    (["$$t0", "$$8", "$32", "$", "t10", ""].all describedRegister) = true ∧
    assemble cfg0 [ln "add" "$$t0" "$t1" "$t2"] = .failed [⟨0, .invalidRegister⟩] := by decide
/-- R75: the bound is on the whole line, label, colon and spaces included. -/
theorem test_line_length :
    (labelled "loop" "addi" "$t1" "$t1" "1").textLength = "loop: addi $t1 $t1 1".length ∧
    withinTextBounds ⟨0, 9, 17, 20, 20⟩ (labelled "loop" "addi" "$t1" "$t1" "1") = true ∧
    withinTextBounds ⟨0, 9, 17, 19, 20⟩ (labelled "loop" "addi" "$t1" "$t1" "1") = false ∧
    assemble cfg0 [.untokenized 81] = .refused [.overlongText] := by decide
/-- S2.4, S3.4, S3.1 and the boundary rows of section 4. -/
theorem test_assemble_lines :
    assembleLine [] 0 (ln "nop" "$t0" "$t1" "$t2") = .ok .nop ∧
    assembleLine [] 0 (ln "sll" "$t0" "$t0" "31") = .ok (.sll 8 8 31) ∧
    assembleLine [] 0 (ln "andi" "$t0" "$t0" "65535") = .error [.error .immediateOutOfRange] ∧
    branchOffset [("skip", 5)] 2 "skip" = .ok 2 ∧ branchOffset [("top", 0)] 32767 "top" = .ok 0x8000 ∧
    branchOffset [("top", 0)] 32768 "top" = .error (.error .immediateOutOfRange) := by decide
theorem test_listing : listing ⟨0x1000, 9, 17, 80, 20⟩ [7, 8] = [(0x1000, 7), (0x1004, 8)] := by decide

/-! ## Witnesses: the hypotheses of the statements are met -/

theorem witness_MaskAndMatchDecode :
    (0x014B6FE0#32 ≠ 0#32 ∧ 0x014B6FE0#32 &&& 0xFC00003F#32 = 0x00000020#32) ∧
    (0x03E00000#32 ≠ 0#32 ∧ 0x03E00000#32 &&& 0xFC00003F#32 = 0x00000000#32) ∧
    (0x00000002#32 ≠ 0#32 ∧ 0x00000002#32 &&& 0xFC00003F#32 = 0x00000002#32) ∧
    (0x23FFFFFF#32 ≠ 0#32 ∧ 0x23FFFFFF#32 &&& 0xFC000000#32 = 0x20000000#32) ∧
    (0x30000000#32 ≠ 0#32 ∧ 0x30000000#32 &&& 0xFC000000#32 = 0x30000000#32) ∧
    (0x13FF7FFF#32 ≠ 0#32 ∧ 0x13FF7FFF#32 &&& 0xFC000000#32 = 0x10000000#32) ∧
    (0x17FF8000#32 ≠ 0#32 ∧ 0x17FF8000#32 &&& 0xFC000000#32 = 0x14000000#32) := by decide
theorem witness_FunctIsIgnoredOutsideOpcodeZero :
    opcodeOf 0x2000FFFF#32 ≠ 0#6 ∧ (0x2000FFFF#32).toNat / 2 ^ 26 = (0x20000020#32).toNat / 2 ^ 26 := by decide
theorem witness_OpcodeTableGivesTheClass :
    ∃ r ∈ opcodeTable, ∃ r' ∈ opcodeTable, r ≠ r' ∧ r.matchesWord 0 = true ∧ r'.matchesWord 0 = true := by decide
theorem witness_IgnoredBitsHaveNoEffect :
    (0x014B6FE0#32 &&& 0xFFFFF83F#32 = 0x014B6820#32 &&& 0xFFFFF83F#32 ∧ classify 0x014B6FE0#32 = .add) ∧
    (0x00095100#32 &&& 0xFC1FFFFF#32 = 0x03E95100#32 &&& 0xFC1FFFFF#32 ∧ 0x03E95100#32 ≠ 0#32 ∧
      classify 0x00095100#32 = .sll) ∧
    (0x00000002#32 &&& 0xFC1FFFFF#32 = 0x03E00002#32 &&& 0xFC1FFFFF#32 ∧ 0x03E00002#32 ≠ 0#32 ∧
      classify 0x00000002#32 = .srl) := by decide
theorem witness_DecodeOfEncode :
    (Instr.andi 31 0 0xFFFF).WellFormed = true ∧ (Instr.sll 0 0 0).WellFormed = false := by decide
theorem witness_EncodeOfDecode :
    decode 0x014B6820#32 = .ok (.add 13 10 11) ∧ decode 0x03E00000#32 = .ok (.sll 0 0 0) := by decide
theorem witness_EncoderEmitsTheCanonicalWords :
    encode (.add 1 2 3) = encode (.add 1 2 3) ∧ encode .nop = encode (.sll 0 0 0) := by decide
theorem witness_ImmediateRoundTrip :
    (-32768 ≤ (-32768 : Int) ∧ (-32768 : Int) ≤ 32767) ∧ -32768 ≤ (32767 : Int) ∧ (32767 : Int) ≤ 32767 := by decide
theorem witness_NopOnlyAdvances :
    exec .nop (at10 0 0 7 0 7) = .next { at10 0 0 7 0 7 with index := 11 } ∧ (at10 0 0 7 0 7).faultMark = none ∧
    (at10 0 0 7 0 7).index + 1 = (at10 0 0 7 0 7).image.length := ⟨rfl, rfl, rfl⟩
/-- For `BeqBranchesOnEqual` and `BneBranchesOnDifferent`. -/
theorem witness_branches :
    opcodeOf 0x13FF7FFF#32 = 0x04#6 ∧ opcodeOf 0x14000000#32 = 0x05#6 ∧
    (at10 0 8 7 9 7).readReg 9 = (at10 0 8 7 9 7).readReg 8 ∧
    (at10 0 8 7 9 6).readReg 9 ≠ (at10 0 8 7 9 6).readReg 8 ∧
    (at10 0 8 7 9 6).faultMark = none ∧ (10 + 1 + (0x8000#16).toInt < 0) ∧
    readRegister "$t0" = .ok 8 ∧ readRegister "$t1" = .ok 9 ∧ branchOffset [("l", 0)] 0 "l" = .ok 0xFFFF := by decide
/-- The first and the last index of an image (for `StepRunsTheDecodedInstruction` and `StepFollowsThePseudocode`). -/
theorem witness_step :
    (State.load [0x20080005]).faultMark = none ∧ 0 ≤ (State.load [0x20080005]).index ∧
    (State.load [0x20080005]).image[(State.load [0x20080005]).index.toNat]? = some 0x20080005 ∧
    decode 0x20080005#32 = .ok (.addi 8 0 5) ∧
    (at10 0x012A4020 9 1 10 2).faultMark = none ∧ 0 ≤ (at10 0x012A4020 9 1 10 2).index ∧
    (at10 0x012A4020 9 1 10 2).image[(at10 0x012A4020 9 1 10 2).index.toNat]? = some 0x012A4020 ∧
    decode 0x012A4020#32 = .ok (.add 8 9 10) := by decide
theorem witness_TerminalStatesHaveNoStep :
    (State.load []).faultMark = none ∧ ((State.load []).image.length : Int) ≤ (State.load []).index ∧
    ({ State.load [0] with index := -1 } : State).faultMark = none ∧ ({ State.load [0] with index := -1 } : State).index < 0 := by
  decide
theorem witness_IllegalWordFaultsAndHolds :
    (State.load [0x00000001]).faultMark = none ∧ 0 ≤ (State.load [0x00000001]).index ∧
    (State.load [0x00000001]).image[(State.load [0x00000001]).index.toNat]? = some 0x00000001 ∧
    isLegal 0x00000001#32 = false := by decide
theorem witness_EveryStepAdvancesByDelta :
    (at10 0x11090003 8 7 9 7).faultMark = none ∧ (at10 0x11090003 8 7 9 7).fetch = some 0x11090003 ∧
    decode 0x11090003#32 = .ok (.beq 8 9 3) ∧
    (at10 0x15097FFF 8 1 9 0).fetch = some 0x15097FFF ∧ decode 0x15097FFF#32 = .ok (.bne 8 9 0x7FFF) ∧
    (at10 0 8 1 9 0).fetch = some 0 ∧ Instr.nop.cls ≠ .beq ∧ Instr.nop.cls ≠ .bne := by decide
/-- A step that answers a next state, one of a write and one of a taken branch. -/
theorem witness_AtMostOneRegisterIsWritten :
    (∃ t, step (at10 0x21290001 9 4 9 4) = .next t) ∧
    ∃ t, step (at10 0x11090003 8 7 9 7) = .next t ∧ t.index ≠ (at10 0x11090003 8 7 9 7).index + 1 :=
  ⟨⟨_, rfl⟩, ⟨_, rfl, by decide⟩⟩
theorem witness_ImageIsNeverWritten : (run 1 (State.load [0x20080005, 0])).Running := by decide
theorem witness_BranchTargetsAreNotChecked :
    ((at10 0x11088000 8 0x7B 8 0x7B).faultMark = none ∧ (at10 0x11088000 8 0x7B 8 0x7B).fetch = some 0x11088000 ∧
      decode 0x11088000#32 = .ok (.beq 8 8 0x8000) ∧
      (at10 0x11088000 8 0x7B 8 0x7B).readReg 8 = (at10 0x11088000 8 0x7B 8 0x7B).readReg 8) ∧
    ((at10 0x15097FFF 8 1 9 0).faultMark = none ∧ (at10 0x15097FFF 8 1 9 0).fetch = some 0x15097FFF ∧
      decode 0x15097FFF#32 = .ok (.bne 8 9 0x7FFF) ∧
      (at10 0x15097FFF 8 1 9 0).readReg 9 ≠ (at10 0x15097FFF 8 1 9 0).readReg 8) ∧
    (10 + 1 + (0x8000#16).toInt < 0) ∧ ((11 : Int) ≤ 10 + 1 + (0x7FFF#16).toInt) := by decide
theorem witness_BranchToSelfLoopsForEver :
    (State.load [0x1000FFFF]).faultMark = none ∧ (State.load [0x1000FFFF]).fetch = some 0x1000FFFF ∧
    decode 0x1000FFFF#32 = .ok (.beq 0 0 0xFFFF) := by decide
/-- A write that changes no value, a step without a write, and a state without a step. -/
theorem witness_TraceRecordsEveryStep :
    (∃ t, step (at10 0x21290000 9 4 9 4) = .next t) ∧
    traceEntry (at10 0x21290000 9 4 9 4) = some ⟨10, .addi, some (9, 4)⟩ ∧
    (∃ t, step (at10 0 9 4 9 4) = .next t) ∧ traceEntry (at10 0 9 4 9 4) = some ⟨10, .nop, none⟩ ∧
    ∀ t, step (State.load []) ≠ .next t :=
  ⟨⟨_, rfl⟩, by decide, ⟨_, rfl⟩, by decide, fun _ h => nomatch h⟩
theorem witness_PlacedWordRunsNext :
    decodeTableWord 32 0x1528FFFE = some (.bne 9 8 0xFFFE) ∧ decodeTableWord 6 0x20 = some (.add 0 0 0) := by decide
/-- The invariant holds at the lower cursor bound and in a faulted state. -/
theorem witness_StepKeepsInvariant :
    Invariant { State.load [0] with index := -32767 } ∧
    Invariant ((State.load [0x00000001]).latchFault (.illegalWord 0 0x00000001)) := by
  refine ⟨⟨by decide, fun k w h => ?_⟩, ⟨by decide, fun k w h => ?_⟩⟩
  · exact absurd h (by simp [State.load, State.reset])
  · obtain ⟨rfl, rfl⟩ : 0 = k ∧ 0x00000001#32 = w := by simpa [State.latchFault] using h
    decide
/-- The invariant holds at the last word of a program with a branch to its first, and after its end. -/
theorem witness_StepKeepsProgramInvariant :
    ProgramInvariant { State.load [0, 0x1000FFFE] with index := 1 } ∧
    ProgramInvariant { State.load [0, 0x1000FFFE] with index := 2 } := by
  have legal : LegalImage [0#32, 0x1000FFFE#32] := by
    intro w h
    obtain rfl | rfl : w = 0#32 ∨ w = 0x1000FFFE#32 := by simpa using h
    · decide
    · decide
  have targets : TargetsInRange [0#32, 0x1000FFFE#32] := by
    rintro (_ | _ | k) w h -
    · obtain rfl : 0#32 = w := by simpa using h
      decide
    · obtain rfl : 0x1000FFFE#32 = w := by simpa using h
      decide
    · simp at h
  exact ⟨⟨rfl, legal, targets, by decide, by decide⟩, ⟨rfl, legal, targets, by decide, by decide⟩⟩
/-- The image part is `witness_StepKeepsProgramInvariant`'s. -/
theorem witness_LaunchMeetsProgramInvariant :
    launch (assemble cfg0 countToFive) = some (State.load [0x20080005, 0x20090000, 0x21290001, 0x1528FFFE]) := by
  rw [test_assemble_count_to_five]
  rfl
theorem witness_CursorNeverWraps :
    cfg0.IndexWidthSuffices ∧ WithinCapacity cfg0 (List.replicate 9 0x1000FFFF) := by decide
theorem witness_LegalImagesNeverFault :
    (State.load [0x1000FFFD, 0]).faultMark = none ∧ LegalImage (State.load [0x1000FFFD, 0]).image ∧
    (run 0 (State.load [0x1000FFFD, 0])).Running := by
  refine ⟨rfl, fun w hw => ?_, by decide⟩
  obtain rfl | rfl : w = 0x1000FFFD#32 ∨ w = 0#32 := by simpa using hw
  all_goals decide
theorem witness_RunHasOneOfThreeOutcomes :
    status (run 1 (State.load [0])) ≠ .running ∧ status (run 4 (State.load [0])) ≠ .running := by decide
theorem witness_CodeIsPositionIndependent :
    (at10 0 0 0 0 0).image = List.replicate 10 0 ++ (State.load [0]).image ++ [] ∧
    (at10 0 0 0 0 0).regs = (State.load [0]).regs ∧
    (at10 0 0 0 0 0).index = (State.load [0]).index + (List.replicate 10 (0 : Word)).length ∧
    (State.load [0]).faultMark = none ∧ (at10 0 0 0 0 0).faultMark = none ∧
    ∀ k, k < 1 → status (run k (State.load [0])) = .running := by decide
theorem witness_BranchOffsetLandsOnTheLabel :
    branchOffset [("far", 32768)] 0 "far" = .ok 0x7FFF ∧ resolve [("far", 32768)] "near" = none ∧
    (resolve [("far", 32768)] "far" = some 32768 ∧ ((32768 : Nat) : Int) - ((0 : Nat) + 1) ≤ 32767) ∧
    (resolve [("top", 0)] "top" = some 0 ∧ -32768 ≤ ((0 : Nat) : Int) - ((32767 : Nat) + 1)) ∧
    branchOffset [("far", 32769)] 0 "far" = .error (.error .immediateOutOfRange) := by decide
theorem witness_TokensGoToTheirFields :
    readRegister "$t0" = .ok 8 ∧ readRegister "$ra" = .ok 31 ∧ readRegister "$zero" = .ok 0 ∧
    readShift "31" = .ok 31 ∧ readImmediate "-32768" = .ok 0x8000 ∧ branchOffset [("l", 0)] 0 "l" = .ok 0xFFFF := by
  decide
theorem witness_LiteralRangesAreChecked :
    literalValue "-32768" = some (-32768) ∧ literalValue "32767" = some 32767 ∧ literalValue "32768" = some 32768 ∧
    literalValue "-32769" = some (-32769) ∧ literalValue "0" = some 0 ∧ literalValue "31" = some 31 ∧
    literalValue "32" = some 32 ∧ literalValue "-1" = some (-1) := by decide
/-- For `OneWordPerSourceLine`, `AssembledImagesAreWellFormed` and `AssembledRunsStayInTheProgram`. -/
theorem witness_assembled :
    assemble cfg0 countToFive = .image [0x20080005, 0x20090000, 0x21290001, 0x1528FFFE] ∧
    countToFive[3]? = some (ln "bne" "$t1" "$t0" "loop") ∧
    countToFive[2]? = some (.line ⟨some "loop", "addi", "$t1", "$t1", "1"⟩) := ⟨test_assemble_count_to_five, rfl, rfl⟩
theorem witness_AssemblySucceedsOnCleanPrograms :
    programRefusals cfg0 countToFive = [] ∧
    phaseTwo countToFive = [Instr.addi 8 0 5, .addi 9 0 0, .addi 9 9 1, .bne 9 8 0xFFFE].map .ok := by decide
theorem witness_AnyErrorAbortsTheRun :
    [ln "nop" "" "" "", ln "foo" "" "" ""][1]? = some (ln "foo" "" "" "") ∧
    assembleLine (labelTable 0 [ln "nop" "" "" "", ln "foo" "" "" ""]) 1 (ln "foo" "" "" "") =
      .error [.error .unknownOpcode] ∧
    Problem.error .unknownOpcode ∈ [Problem.error .unknownOpcode] ∧
    programRefusals cfg0 [ln "nop" "" "" "", ln "foo" "" "" ""] = [] ∧
    lineRefusals (phaseTwo [ln "nop" "" "" "", ln "foo" "" "" ""]) = [] := by decide
theorem witness_ListingGivesAddressAndWord : ([7, 8] : List Word)[1]? = some 8 := by decide

end Sys2Proof.Tests
end

namespace Sys2Proof.Machine

/-! ## The machine's invariant through a step (R24, R166) -/

@[simp] theorem fetch_latchFault (s : State) (f : Fault) : (s.latchFault f).fetch = s.fetch := rfl

/-- The end of a step taken inside the image leaves the cursor in R24's range, whatever is written. -/
theorem cursorBounded_advance {s : State} (hr : s.Running) (o : Option (RegIdx × Word)) {d : Int}
    (hd : -32768 ≤ d ∧ d ≤ 32767) : CursorBounded ((s.applyWrite o).advance d) := by
  simp only [CursorBounded, advance_index, advance_image, applyWrite_index, applyWrite_image]
  omega

theorem faultMarkTrue_of_unmarked {s : State} (h : s.faultMark = none) : FaultMarkTrue s :=
  fun _ _ hm => by simp [h] at hm

/-- The mark latched for an illegal word at the cursor is true of the latched state (R166). -/
theorem faultMarkTrue_latchFault {s : State} {w : Word} (hf : s.fetch = some w) (hc : classify w = .illegal) :
    FaultMarkTrue (s.latchFault (.illegalWord s.index w)) := by
  intro k v hm
  obtain ⟨rfl, rfl⟩ : s.index = k ∧ w = v := by simpa using hm
  exact ⟨rfl, (fetch_latchFault s _).trans hf, hc⟩

/-- An instruction fetched from the image by an unmarked state ends in a state that meets the invariant. -/
theorem invariant_of_instruction {s : State} {w : Word} (hm : s.faultMark = none) (hf : s.fetch = some w) (i : Instr) :
    Invariant ((s.applyWrite (writeOf s i)).advance (deltaOf s i)) :=
  ⟨cursorBounded_advance (running_of_fetch hf) _ (deltaOf_bounds s i), faultMarkTrue_of_unmarked (by simp [hm])⟩

/-- Settles O40, by the cases of a step that answers a next state and the cases of a clock: only an executed
instruction moves the cursor, and only an illegal word sets the mark. -/
theorem stepKeepsInvariant : Obligations.StepKeepsInvariant := by
  intro s hs
  constructor
  · intro t h
    obtain ⟨w, i, hm, hf, -, rfl⟩ := step_next_cases h
    exact invariant_of_instruction hm hf i
  · obtain ⟨e, -⟩ | ⟨w, -, hf, hc, e⟩ | ⟨w, i, hm, hf, -, e⟩ := tick_cases s
    · rwa [e]
    · rw [e]
      exact ⟨hs.1, faultMarkTrue_latchFault hf hc⟩
    · rw [e]
      exact invariant_of_instruction hm hf i

/-! ## Reset (R31) -/

@[simp] theorem readReg_reset (r : RegIdx) : State.reset.readReg r = 0 := by
  simp [State.readReg, State.reset]

/-- At index 0 the derived pc is the base address (R25). -/
theorem pc_of_index_zero (cfg : Config) {s : State} (h : s.index = 0) : pc cfg s = cfg.baseAddress := by
  simp [pc, h]

/-- Settles O1: register reads, the cursor, and the derived pc of cursor 0. -/
theorem resetZeroesRegistersAndCursor : Obligations.ResetZeroesRegistersAndCursor :=
  ⟨readReg_reset, rfl, fun cfg => pc_of_index_zero cfg rfl⟩

/-! ## The canonical word of an instruction (R70, R91) -/

/-- The class of a canonical word is the instruction's; the one ill-formed term has the zero word, a `nop` (R91). -/
theorem classify_encode (i : Instr) : classify (encode i) = if i.WellFormed then i.cls else .nop := by
  split
  case isTrue hw =>
    cases i with
    | nop => exact Laws.EncodeClass.nop hw
    | add rd rs rt => exact Laws.EncodeClass.add rd rs rt hw
    | sll rd rt shamt => exact Laws.EncodeClass.sll rd rt shamt hw
    | srl rd rt shamt => exact Laws.EncodeClass.srl rd rt shamt hw
    | addi rt rs imm => exact Laws.EncodeClass.addi rt rs imm hw
    | andi rt rs imm => exact Laws.EncodeClass.andi rt rs imm hw
    | beq rs rt off => exact Laws.EncodeClass.beq rs rt off hw
    | bne rs rt off => exact Laws.EncodeClass.bne rs rt off hw
  case isFalse hw =>
    cases i with
    | sll rd rt shamt =>
      obtain ⟨⟨rfl, rfl⟩, rfl⟩ : (rd = 0 ∧ rt = 0) ∧ shamt = 0 := by simpa [Instr.WellFormed] using hw
      decide
    | _ => exact absurd rfl hw

/-- The encoder emits legal words only (R70, R87). -/
theorem isLegal_encode (i : Instr) : isLegal (encode i) = true := by
  have hne : classify (encode i) ≠ .illegal := by
    rw [classify_encode]
    split
    · cases i <;> simp [Instr.cls]
    · simp
  simp [isLegal, hne]

/-- Only the two branches have a canonical word of a branch class. -/
theorem branch_of_classify_encode {i : Instr} (h : classify (encode i) = .beq ∨ classify (encode i) = .bne) :
    ∃ rs rt off, i = .beq rs rt off ∨ i = .bne rs rt off := by
  rw [classify_encode] at h
  split at h
  · cases i <;> simp [Instr.cls] at h ⊢
  · simp at h

/-- The taken target of a branch's canonical word is its own offset from the next index (R84, R146). -/
theorem takenTarget_encode_branch {i : Instr} {rs rt : RegIdx} {off : Imm16}
    (h : i = .beq rs rt off ∨ i = .bne rs rt off) (k : Nat) :
    takenTarget k (encode i) = (k : Int) + 1 + signed16 off := by
  obtain rfl | rfl := h
  · have himm : imm16Of (encode (.beq rs rt off)) = off := imm16Of_packI 4 rs rt off
    rw [takenTarget, Laws.EncodeClass.beq rs rt off rfl, himm]
    rfl
  · have himm : imm16Of (encode (.bne rs rt off)) = off := imm16Of_packI 5 rs rt off
    rw [takenTarget, Laws.EncodeClass.bne rs rt off rfl, himm]
    rfl

/-! ## What an assembled image says of its program (R76, R83, R84) -/

/-- Every problem of a line is an error or a refusal. -/
theorem eq_nil_of_no_errors_no_refusals {k : Nat} {ps : List Problem} (he : errorsAt k ps = [])
    (hr : refusalsIn ps = []) : ps = [] := by
  cases ps with
  | nil => rfl
  | cons p ps => cases p <;> simp [errorsAt, refusalsIn] at he hr

/-- Where no line is refused or reported, every line has an instruction. -/
theorem exists_map_ok_of_no_problems {k : Nat} {rs : List LineResult} (hne : ∀ ps, .error ps ∈ rs → ps ≠ [])
    (hrefused : lineRefusals rs = []) (hreported : reportsFrom k rs = []) : ∃ is : List Instr, rs = is.map .ok := by
  induction rs generalizing k with
  | nil => exact ⟨[], rfl⟩
  | cons r rs ih =>
    have hne' : ∀ ps, .error ps ∈ rs → ps ≠ [] := fun ps hp => hne ps (List.mem_cons_of_mem _ hp)
    cases r with
    | ok i =>
      obtain ⟨is, rfl⟩ := ih hne' hrefused hreported
      exact ⟨i :: is, rfl⟩
    | error ps =>
      obtain ⟨hr, -⟩ := List.append_eq_nil_iff.mp hrefused
      obtain ⟨he, -⟩ := List.append_eq_nil_iff.mp hreported
      exact absurd (eq_nil_of_no_errors_no_refusals he hr) (hne ps List.mem_cons_self)

@[simp] theorem wordsOf_map_ok (is : List Instr) : wordsOf (is.map .ok) = is.map encode := by
  induction is with
  | nil => rfl
  | cons i is ih => simp [wordsOf, ih]

theorem getElem?_phaseTwo (prog : List InputLine) (k : Nat) :
    (phaseTwo prog)[k]? = prog[k]?.map (assembleLine (labelTable 0 prog) k) := by
  rw [phaseTwo, getElem?_assembleLines, Nat.zero_add]

/-- A failed line of phase 2 has a problem to show for it. -/
theorem error_ne_nil_of_mem_phaseTwo {prog : List InputLine} {ps : List Problem} (h : .error ps ∈ phaseTwo prog) :
    ps ≠ [] := by
  obtain ⟨k, hk⟩ := List.mem_iff_getElem?.mp h
  rw [getElem?_phaseTwo] at hk
  obtain ⟨l, -, hl⟩ := Option.map_eq_some_iff.mp hk
  exact assembleLine_error_ne_nil hl

/-- An assembled image is the canonical words of the instructions of all its lines. -/
theorem instructions_of_image {cfg : Config} {prog : List InputLine} {words : List Word}
    (h : assemble cfg prog = .image words) :
    ∃ is : List Instr, phaseTwo prog = is.map .ok ∧ words = is.map encode := by
  obtain ⟨-, hrefused, hreported, rfl⟩ := assemble_eq_image_iff.mp h
  obtain ⟨is, his⟩ := exists_map_ok_of_no_problems (fun _ => error_ne_nil_of_mem_phaseTwo) hrefused hreported
  exact ⟨is, his, by rw [his, wordsOf_map_ok]⟩

/-- An assembled image has one word per source line (R76). -/
theorem length_of_image {cfg : Config} {prog : List InputLine} {words : List Word}
    (h : assemble cfg prog = .image words) : words.length = prog.length := by
  obtain ⟨is, his, rfl⟩ := instructions_of_image h
  have hlen := length_assembleLines (labelTable 0 prog) 0 prog
  rw [← phaseTwo, his] at hlen
  simpa using hlen

/-- Each word of an assembled image is the canonical word of its own line's instruction (R76). -/
theorem line_of_image_word {cfg : Config} {prog : List InputLine} {words : List Word}
    (h : assemble cfg prog = .image words) {k : Nat} {w : Word} (hw : words[k]? = some w) :
    ∃ l i, prog[k]? = some l ∧ assembleLine (labelTable 0 prog) k l = .ok i ∧ encode i = w := by
  obtain ⟨is, his, rfl⟩ := instructions_of_image h
  rw [List.getElem?_map] at hw
  obtain ⟨i, hi, hiw⟩ := Option.map_eq_some_iff.mp hw
  have hline := getElem?_phaseTwo prog k
  rw [his, List.getElem?_map, hi] at hline
  obtain ⟨l, hl, hli⟩ := Option.map_eq_some_iff.mp hline.symm
  exact ⟨l, i, hl, hli, hiw⟩

/-- The 16-bit pattern of a value in range stands for that value (R67). -/
theorem signed16_of_checkImmediate {v : Int} {imm : Imm16} (h : checkImmediate v = .ok imm) : signed16 imm = v := by
  rw [checkImmediate] at h
  split at h
  case isTrue hv =>
    cases h
    exact BitVec.toInt_ofInt_eq_self (by decide) hv.1 (by omega)
  case isFalse => cases h

/-- A branch offset leads from the next index to the line its label names (R84). -/
theorem target_of_branchOffset {table : LabelTable} {k : Nat} {label : Token} {off : Imm16}
    (h : branchOffset table k label = .ok off) :
    ∃ target : Nat, resolve table label = some target ∧ (k : Int) + 1 + signed16 off = target := by
  rw [branchOffset] at h
  split at h
  case h_1 target htarget =>
    have hoff := signed16_of_checkImmediate h
    exact ⟨target, htarget, by omega⟩
  case h_2 => cases h

/-- The offset of an assembled branch is that of the label its line names (R77, R84). -/
theorem branchOffset_of_assembleLine {table : LabelTable} {k : Nat} {l : InputLine} {i : Instr} {rs rt : RegIdx}
    {off : Imm16} (h : assembleLine table k l = .ok i) (hi : i = .beq rs rt off ∨ i = .bne rs rt off) :
    ∃ label, branchOffset table k label = .ok off := by
  cases l with
  | untokenized n => cases h
  | line l =>
    refine ⟨l.arg3, ?_⟩
    rw [assembleLine, assembleTokens] at h
    obtain rfl | rfl := hi
    all_goals
      split_ifs at h
      all_goals simp only [threeOperands_eq_ok_iff, Except.ok.injEq, reduceCtorEq, and_false, exists_false] at h
      obtain ⟨_, _, _, -, -, hoff, hmk⟩ := h
      cases hmk
      exact hoff

/-- A resolved label is a line of the program (R76, R81, R82). -/
theorem resolve_lt_length {prog : List InputLine} {label : Token} {target : Nat}
    (h : resolve (labelTable 0 prog) label = some target) : target < prog.length := by
  simpa using (line_of_mem_labelTable (mem_of_resolve h)).2

/-- Every word of an assembled image is legal (R87). -/
theorem legalImage_of_image {cfg : Config} {prog : List InputLine} {words : List Word}
    (h : assemble cfg prog = .image words) : LegalImage words := by
  obtain ⟨is, -, rfl⟩ := instructions_of_image h
  intro w hw
  obtain ⟨i, -, rfl⟩ := List.mem_map.mp hw
  exact isLegal_encode i

/-- Every branch of an assembled image goes to a line of its program (R84, R85, R87). -/
theorem targetsInRange_of_image {cfg : Config} {prog : List InputLine} {words : List Word}
    (h : assemble cfg prog = .image words) : TargetsInRange words := by
  intro k w hw hbranch
  obtain ⟨l, i, -, hl, rfl⟩ := line_of_image_word h hw
  obtain ⟨rs, rt, off, hi⟩ := branch_of_classify_encode hbranch
  obtain ⟨label, hoff⟩ := branchOffset_of_assembleLine hl hi
  obtain ⟨target, htarget, hto⟩ := target_of_branchOffset hoff
  have hlt := resolve_lt_length htarget
  rw [takenTarget_encode_branch hi, hto, length_of_image h]
  omega

/-! ## The launch states of a run inside its program (R31, R85, R87) -/

theorem launch_eq_some_iff {o : AsmOutcome} {s : State} :
    launch o = some s ↔ ∃ words, o = .image words ∧ State.load words = s := by
  cases o <;> simp [launch]

theorem programInvariant_load {image : List Word} (hlegal : LegalImage image) (htargets : TargetsInRange image) :
    ProgramInvariant (State.load image) :=
  ⟨rfl, hlegal, htargets, Int.le_refl 0, Int.natCast_nonneg image.length⟩

/-- The reset state is the launch state of the empty image (log 11). -/
theorem programInvariant_reset : ProgramInvariant State.reset :=
  programInvariant_load (image := []) (fun _ hw => by simp at hw) (fun _ _ hw => by simp at hw)

/-- Settles O55: the reset state launches the empty image (log 11), and an assembled image is legal with its targets in
range because each word is its line's canonical word and each branch goes to a line a label names. -/
theorem launchMeetsProgramInvariant : Obligations.LaunchMeetsProgramInvariant := by
  refine ⟨programInvariant_reset, fun _ => programInvariant_load, ?_⟩
  intro cfg prog s hs
  obtain ⟨words, himage, rfl⟩ := launch_eq_some_iff.mp hs
  exact programInvariant_load (legalImage_of_image himage) (targetsInRange_of_image himage)

end Sys2Proof.Machine

namespace Sys2Proof.Machine

/-! ## The image is read-only (R52) -/

/-- Whatever a clock does (hold, latch a fault, run an instruction), it leaves the image alone. -/
@[simp] theorem tick_image (s : State) : (tick s).image = s.image := by
  obtain ⟨e, -⟩ | ⟨_, -, -, -, e⟩ | ⟨_, _, -, -, -, e⟩ := tick_cases s <;> simp [e]

@[simp] theorem run_image (k : Nat) (s : State) : (run k s).image = s.image := by
  induction k generalizing s with
  | zero => rfl
  | succ k ih => rw [run_succ, ih, tick_image]

/-- At a cursor that is not negative the fetch is the image's lookup (R46, R144). -/
theorem fetch_of_index_nonneg {s : State} (h : 0 ≤ s.index) : s.fetch = s.image[s.index.toNat]? := by
  simp [State.fetch, h]

/-- Settles O34: no clock writes the image, so a running state's fetch looks its cursor up in the first one. -/
theorem imageIsNeverWritten : Obligations.ImageIsNeverWritten := by
  intro s k
  refine ⟨run_image k s, fun hr => ?_⟩
  rw [fetch_of_index_nonneg hr.1, run_image]

end Sys2Proof.Machine

namespace Sys2Proof

/-! ## The opcode table's masks as conditions on the fields (R69) -/

/-- The mask of an I-type-like row keeps the opcode's bits in place. -/
theorem toNat_and_opcodeMask (w : Word) : (w &&& 0xFC000000#32).toNat = w.toNat / 2 ^ 26 * 2 ^ 26 := by
  rw [show 0xFC000000#32 = BitVec.allOnes 32 <<< 26 by decide, ← BitVec.shiftLeft_ushiftRight]
  simp only [BitVec.toNat_shiftLeft, BitVec.toNat_ushiftRight, Nat.shiftLeft_eq, Nat.shiftRight_eq_div_pow]
  omega

/-- The mask of an R-type-like row keeps the opcode's and the funct's bits in place. -/
theorem toNat_and_functMask (w : Word) :
    (w &&& 0xFC00003F#32).toNat = w.toNat / 2 ^ 26 * 2 ^ 26 + w.toNat % 64 := by
  have hlow : (w &&& 0x3F#32).toNat = w.toNat % 64 := by
    rw [BitVec.toNat_and]
    exact Nat.and_two_pow_sub_one_eq_mod w.toNat 6
  rw [show 0xFC00003F#32 = 0xFC000000#32 ||| 0x3F#32 by decide, BitVec.and_or_distrib_left, BitVec.toNat_or,
    toNat_and_opcodeMask, hlow, or_eq_add (by omega)]

/-- A word fits an I-type-like row exactly when its opcode is the row's. -/
theorem and_opcodeMask_eq_iff {w : Word} (op : BitVec 6) :
    w &&& 0xFC000000#32 = op.setWidth 32 <<< 26 ↔ opcodeOf w = op := by
  have hop := op.isLt
  rw [← BitVec.toNat_inj, ← BitVec.toNat_inj, toNat_and_opcodeMask, toNat_opcodeOf, BitVec.toNat_shiftLeft,
    BitVec.toNat_setWidth_of_le (by omega), Nat.shiftLeft_eq]
  omega

/-- A word fits an R-type-like row exactly when its opcode is 0 and its funct is the row's. -/
theorem and_functMask_eq_iff {w : Word} (f : BitVec 6) :
    w &&& 0xFC00003F#32 = f.setWidth 32 ↔ opcodeOf w = 0x00#6 ∧ functOf w = f := by
  have hf := f.isLt
  rw [← BitVec.toNat_inj, ← BitVec.toNat_inj, ← BitVec.toNat_inj, toNat_and_functMask, toNat_opcodeOf, toNat_functOf,
    BitVec.toNat_setWidth_of_le (by omega), BitVec.toNat_ofNat]
  omega

theorem classify_eq_nop_iff {w : Word} : classify w = .nop ↔ w = 0#32 := by
  rw [classify]
  split_ifs <;> simp [*]

/-- A non-zero word fits a row exactly when it is of the row's class: no two of the seven other rows overlap (R69). -/
theorem matchesWord_iff_classify {w : Word} (hw : w ≠ 0#32) {r : OpcodeRow} (hr : r ∈ opcodeTable) :
    r.matchesWord w = true ↔ classify w = r.cls := by
  simp only [opcodeTable, List.mem_cons, List.not_mem_nil, or_false] at hr
  rw [OpcodeRow.matchesWord, beq_iff_eq]
  obtain rfl | hr := hr
  · rw [classify_eq_nop_iff, show 0xFFFFFFFF#32 = BitVec.allOnes 32 by decide, BitVec.and_allOnes]
  rw [classify, if_neg hw]
  obtain rfl | rfl | rfl | rfl | rfl | rfl | rfl := hr
  · refine (and_functMask_eq_iff 0x20#6).trans ?_
    split_ifs <;> simp [*]
  · refine (and_functMask_eq_iff 0x00#6).trans ?_
    split_ifs <;> simp [*]
  · refine (and_functMask_eq_iff 0x02#6).trans ?_
    split_ifs <;> simp [*]
  · refine (and_opcodeMask_eq_iff 0x08#6).trans ?_
    split_ifs <;> simp [*]
  · refine (and_opcodeMask_eq_iff 0x0C#6).trans ?_
    split_ifs <;> simp [*]
  · refine (and_opcodeMask_eq_iff 0x04#6).trans ?_
    split_ifs <;> simp [*]
  · refine (and_opcodeMask_eq_iff 0x05#6).trans ?_
    split_ifs <;> simp [*]

/-- Every class but `illegal` has a row (R69). -/
theorem exists_row_of_ne_illegal {c : Class} (h : c ≠ .illegal) : ∃ r ∈ opcodeTable, r.cls = c := by
  cases c with
  | illegal => exact absurd rfl h
  | _ => decide

theorem row_eq_of_cls_eq : ∀ r ∈ opcodeTable, ∀ r' ∈ opcodeTable, r.cls = r'.cls → r = r' := by decide

/-- The zero word fits the rows of `nop` and `sll` and no other (R69). -/
theorem cls_of_matchesWord_zero :
    ∀ r ∈ opcodeTable, r.matchesWord 0#32 = true → r.cls = .nop ∨ r.cls = .sll := by decide

/-- The class tests of R102 find the first matching row of R69's table. -/
theorem classify_eq_tableClass (w : Word) : classify w = tableClass w := by
  by_cases hw : w = 0#32
  · rw [hw]
    decide
  · rw [tableClass]
    split
    case h_1 r hfind =>
      have hm : r.matchesWord w = true := by simpa using List.find?_some hfind
      exact (matchesWord_iff_classify hw (List.mem_of_find?_eq_some hfind)).mp hm
    case h_2 hfind =>
      by_contra hc
      obtain ⟨r, hr, hcls⟩ := exists_row_of_ne_illegal hc
      exact List.find?_eq_none.mp hfind r hr ((matchesWord_iff_classify hw hr).mpr hcls.symm)

/-- Settles O7: a non-zero word fits only the row of its class, and the zero word only those of `nop` and `sll`. -/
theorem opcodeTableGivesTheClass : Obligations.OpcodeTableGivesTheClass := by
  refine ⟨classify_eq_tableClass, fun w r hr r' hr' hne hm hm' => ?_⟩
  have hcls : r.cls ≠ r'.cls := fun e => hne (row_eq_of_cls_eq r hr r' hr' e)
  by_cases hw : w = 0#32
  · subst hw
    refine ⟨rfl, ?_⟩
    obtain h | h := cls_of_matchesWord_zero r hr hm
    · obtain h' | h' := cls_of_matchesWord_zero r' hr' hm'
      · exact absurd (h.trans h'.symm) hcls
      · exact .inl ⟨h, h'⟩
    · obtain h' | h' := cls_of_matchesWord_zero r' hr' hm'
      · exact .inr ⟨h, h'⟩
      · exact absurd (h.trans h'.symm) hcls
  · have h := (matchesWord_iff_classify hw hr).mp hm
    have h' := (matchesWord_iff_classify hw hr').mp hm'
    exact absurd (h.symm.trans h') hcls

/-! ## Decoding, class by class (R102, R105) -/

section DecodeClass
variable {w : Word}

theorem decode_of_nop (h : classify w = .nop) : decode w = .ok .nop := by
  rw [decode, h]
theorem decode_of_add (h : classify w = .add) : decode w = .ok (.add (rdOf w) (rsOf w) (rtOf w)) := by
  rw [decode, h]
theorem decode_of_sll (h : classify w = .sll) : decode w = .ok (.sll (rdOf w) (rtOf w) (shamtOf w)) := by
  rw [decode, h]
theorem decode_of_srl (h : classify w = .srl) : decode w = .ok (.srl (rdOf w) (rtOf w) (shamtOf w)) := by
  rw [decode, h]
theorem decode_of_addi (h : classify w = .addi) : decode w = .ok (.addi (rtOf w) (rsOf w) (imm16Of w)) := by
  rw [decode, h]
theorem decode_of_andi (h : classify w = .andi) : decode w = .ok (.andi (rtOf w) (rsOf w) (imm16Of w)) := by
  rw [decode, h]
theorem decode_of_beq (h : classify w = .beq) : decode w = .ok (.beq (rsOf w) (rtOf w) (imm16Of w)) := by
  rw [decode, h]
theorem decode_of_bne (h : classify w = .bne) : decode w = .ok (.bne (rsOf w) (rtOf w) (imm16Of w)) := by
  rw [decode, h]

end DecodeClass

/-- A non-zero word that fits a row's mask and match is of the row's class. -/
theorem classify_of_mask {w mask pattern : Word} {c : Class} (hw : w ≠ 0#32) (hm : w &&& mask = pattern)
    (hr : ⟨c, mask, pattern⟩ ∈ opcodeTable) : classify w = c :=
  (matchesWord_iff_classify hw hr).mp (beq_iff_eq.mpr hm)

/-- Settles O8: each row's mask and match give the class, and the class gives the instruction. -/
theorem maskAndMatchDecode : Obligations.MaskAndMatchDecode := fun _ hw =>
  ⟨fun h => decode_of_add (classify_of_mask hw h (by decide)),
    fun h => decode_of_sll (classify_of_mask hw h (by decide)),
    fun h => decode_of_srl (classify_of_mask hw h (by decide)),
    fun h => decode_of_addi (classify_of_mask hw h (by decide)),
    fun h => decode_of_andi (classify_of_mask hw h (by decide)),
    fun h => decode_of_beq (classify_of_mask hw h (by decide)),
    fun h => decode_of_bne (classify_of_mask hw h (by decide))⟩

/-! ## Decode of encode (R70, R91, R102) -/

/-- `sll $zero $zero 0` is the one ill-formed term (R91). -/
theorem not_wellFormed_iff {i : Instr} : i.WellFormed = false ↔ i = .sll 0 0 0 := by
  cases i <;> simp [Instr.WellFormed, and_assoc]

/-- The fields of the four I-type-like canonical words (R63, R70). -/
theorem fields_encode_itype {i : Instr} {rs rt : RegIdx} {imm : Imm16}
    (h : i = .addi rt rs imm ∨ i = .andi rt rs imm ∨ i = .beq rs rt imm ∨ i = .bne rs rt imm) :
    rsOf (encode i) = rs ∧ rtOf (encode i) = rt ∧ imm16Of (encode i) = imm := by
  obtain rfl | rfl | rfl | rfl := h
  · exact ⟨rsOf_packI 8 rs rt imm, rtOf_packI 8 rs rt imm, imm16Of_packI 8 rs rt imm⟩
  · exact ⟨rsOf_packI 12 rs rt imm, rtOf_packI 12 rs rt imm, imm16Of_packI 12 rs rt imm⟩
  · exact ⟨rsOf_packI 4 rs rt imm, rtOf_packI 4 rs rt imm, imm16Of_packI 4 rs rt imm⟩
  · exact ⟨rsOf_packI 5 rs rt imm, rtOf_packI 5 rs rt imm, imm16Of_packI 5 rs rt imm⟩

theorem decode_encode {i : Instr} (hw : i.WellFormed = true) : decode (encode i) = .ok i := by
  have hc : classify (encode i) = i.cls := by rw [Machine.classify_encode, if_pos hw]
  cases i with
  | nop => exact decode_of_nop hc
  | add rd rs rt =>
    have hf : (0x20#32).toNat < 64 := by decide
    rw [decode_of_add hc, encode, rdOf_packR _ _ _ _ hf, rsOf_packR _ _ _ _ hf, rtOf_packR _ _ _ _ hf]
  | sll rd rt shamt =>
    have hf : (0x00#32).toNat < 64 := by decide
    rw [decode_of_sll hc, encode, rdOf_packR _ _ _ _ hf, rtOf_packR _ _ _ _ hf, shamtOf_packR _ _ _ _ hf]
  | srl rd rt shamt =>
    have hf : (0x02#32).toNat < 64 := by decide
    rw [decode_of_srl hc, encode, rdOf_packR _ _ _ _ hf, rtOf_packR _ _ _ _ hf, shamtOf_packR _ _ _ _ hf]
  | addi rt rs imm =>
    obtain ⟨hrs, hrt, himm⟩ := fields_encode_itype (i := .addi rt rs imm) (.inl rfl)
    rw [decode_of_addi hc, hrs, hrt, himm]
  | andi rt rs imm =>
    obtain ⟨hrs, hrt, himm⟩ := fields_encode_itype (i := .andi rt rs imm) (.inr (.inl rfl))
    rw [decode_of_andi hc, hrs, hrt, himm]
  | beq rs rt off =>
    obtain ⟨hrs, hrt, himm⟩ := fields_encode_itype (i := .beq rs rt off) (.inr (.inr (.inl rfl)))
    rw [decode_of_beq hc, hrs, hrt, himm]
  | bne rs rt off =>
    obtain ⟨hrs, hrt, himm⟩ := fields_encode_itype (i := .bne rs rt off) (.inr (.inr (.inr rfl)))
    rw [decode_of_bne hc, hrs, hrt, himm]

/-- Settles O12: the class of a canonical word is the instruction's, and the fields of its layout are the operands. -/
theorem decodeOfEncode : Obligations.DecodeOfEncode := by
  refine ⟨fun _ => decode_encode, fun i hw => ?_⟩
  obtain rfl := not_wellFormed_iff.mp hw
  exact ⟨rfl, by decide⟩

/-! ## The zero word and the canonical words (R70, R91) -/

theorem encode_eq_zero_iff {i : Instr} : encode i = 0#32 ↔ i = .nop ∨ i = .sll 0 0 0 := by
  constructor
  · intro h
    cases hw : i.WellFormed with
    | true =>
      have hd := decode_encode hw
      rw [h] at hd
      exact .inl (Except.ok.inj hd).symm
    | false => exact .inr (not_wellFormed_iff.mp hw)
  · rintro (rfl | rfl) <;> decide

/-- Settles O15: a well-formed instruction is what its word decodes to, and the zero word decodes to `nop`. -/
theorem zeroWordHasTwoSources : Obligations.ZeroWordHasTwoSources := fun _ => encode_eq_zero_iff

/-- An instruction with a word other than zero is well formed. -/
theorem wellFormed_of_encode_ne_zero {i : Instr} (h : encode i ≠ 0#32) : i.WellFormed = true := by
  by_contra hw
  exact h (encode_eq_zero_iff.mpr (.inr (not_wellFormed_iff.mp (Bool.eq_false_iff.mpr hw))))

/-- Outside the zero word the encoder is injective (R91). -/
theorem encode_injective_of_ne_zero {i j : Instr} (h : encode i = encode j) (hne : encode i ≠ 0#32) : i = j := by
  have hi := decode_encode (wellFormed_of_encode_ne_zero hne)
  have hj := decode_encode (wellFormed_of_encode_ne_zero (h ▸ hne))
  exact Except.ok.inj (hi.symm.trans ((congrArg decode h).trans hj))

/-- A word is what the R-type-like layout packs from its own fields, if only the funct is left of it under the mask. -/
theorem packR_fields {w f : Word} (hf : f.toNat < 64) (hm : w &&& 0xFC00003F#32 = f) :
    packR (rsOf w) (rtOf w) (rdOf w) (shamtOf w) f = w := by
  have hmask := toNat_and_functMask w
  rw [hm] at hmask
  apply BitVec.eq_of_toNat_eq
  rw [toNat_packR _ _ _ _ hf, val_rsOf, val_rtOf, val_rdOf, val_shamtOf]
  omega

/-- A word is what the I-type-like layout packs from its own fields and opcode. -/
theorem packI_fields {w : Word} (op : Fin 64) (hm : w &&& 0xFC000000#32 = BitVec.ofNat 32 (op.val * 2 ^ 26)) :
    packI (BitVec.ofNat 32 (op.val * 2 ^ 26)) (rsOf w) (rtOf w) (imm16Of w) = w := by
  have hmask := toNat_and_opcodeMask w
  rw [hm, BitVec.toNat_ofNat] at hmask
  apply BitVec.eq_of_toNat_eq
  rw [toNat_packI, val_rsOf, val_rtOf, toNat_imm16Of]
  omega

/-- A word of a row's class has the row's bits under its mask; this holds for the zero word as well. -/
theorem mask_of_classify {w mask pattern : Word} {c : Class} (hc : classify w = c)
    (hr : ⟨c, mask, pattern⟩ ∈ opcodeTable) : w &&& mask = pattern := by
  have zero : ∀ r ∈ opcodeTable, classify 0#32 = r.cls → r.matchesWord 0#32 = true := by decide
  by_cases hw : w = 0#32
  · subst hw
    exact beq_iff_eq.mp (zero _ hr hc)
  · exact beq_iff_eq.mp ((matchesWord_iff_classify hw hr).mpr hc)

/-- A canonical word is the word of the instruction it decodes to (R70, R108). -/
theorem encode_of_decode_canonical {w : Word} {i : Instr} (hcan : isCanonical w = true) (hd : decode w = .ok i) :
    encode i = w := by
  rw [isCanonical] at hcan
  cases hc : classify w with
  | nop =>
    cases (decode_of_nop hc).symm.trans hd
    exact (classify_eq_nop_iff.mp hc).symm
  | add =>
    cases (decode_of_add hc).symm.trans hd
    rw [hc] at hcan
    have hpack := packR_fields (f := 0x20#32) (by decide) (mask_of_classify hc (by decide))
    rwa [beq_iff_eq.mp hcan] at hpack
  | sll =>
    cases (decode_of_sll hc).symm.trans hd
    rw [hc] at hcan
    have hpack := packR_fields (f := 0x00#32) (by decide) (mask_of_classify hc (by decide))
    rwa [beq_iff_eq.mp hcan] at hpack
  | srl =>
    cases (decode_of_srl hc).symm.trans hd
    rw [hc] at hcan
    have hpack := packR_fields (f := 0x02#32) (by decide) (mask_of_classify hc (by decide))
    rwa [beq_iff_eq.mp hcan] at hpack
  | addi =>
    cases (decode_of_addi hc).symm.trans hd
    exact packI_fields 8 (mask_of_classify hc (by decide))
  | andi =>
    cases (decode_of_andi hc).symm.trans hd
    exact packI_fields 12 (mask_of_classify hc (by decide))
  | beq =>
    cases (decode_of_beq hc).symm.trans hd
    exact packI_fields 4 (mask_of_classify hc (by decide))
  | bne =>
    cases (decode_of_bne hc).symm.trans hd
    exact packI_fields 5 (mask_of_classify hc (by decide))
  | illegal => simp [hc] at hcan

/-- The encoder fills none of the bits its class ignores (R70). -/
theorem isCanonical_encode (i : Instr) : isCanonical (encode i) = true := by
  rw [isCanonical, Machine.classify_encode]
  by_cases hw : i.WellFormed = true
  · rw [if_pos hw]
    cases i with
    | add rd rs rt => exact beq_iff_eq.mpr (shamtOf_packR rs rt rd 0 (by decide))
    | sll rd rt shamt => exact beq_iff_eq.mpr (rsOf_packR 0 rt rd shamt (by decide))
    | srl rd rt shamt => exact beq_iff_eq.mpr (rsOf_packR 0 rt rd shamt (by decide))
    | _ => rfl
  · rw [if_neg hw]

/-- A canonical word is legal (R70). -/
theorem exists_decode_of_canonical {w : Word} (h : isCanonical w = true) : ∃ i, decode w = .ok i := by
  refine decode_isOk_iff.mpr fun hc => ?_
  simp [isCanonical, hc] at h

/-- Settles O14: the encoder emits canonical words, a canonical word is the word of what it decodes to, and decoding
inverts the encoder on the words other than zero. -/
theorem encoderEmitsTheCanonicalWords : Obligations.EncoderEmitsTheCanonicalWords := by
  refine ⟨fun w => ⟨fun h => ?_, ?_⟩, fun i j h => ?_⟩
  · obtain ⟨i, hd⟩ := exists_decode_of_canonical h
    exact ⟨i, encode_of_decode_canonical h hd⟩
  · rintro ⟨i, rfl⟩
    exact isCanonical_encode i
  · exact or_iff_not_imp_right.mpr (encode_injective_of_ne_zero h)

/-! ## Immediates (R90) -/

/-- In range, the pattern of a value stands for the value (R67). -/
theorem signed16_encodeImm {x : Int} (hlo : -32768 ≤ x) (hhi : x ≤ 32767) : Machine.signed16 (encodeImm x) = x :=
  Machine.signed16_of_checkImmediate (if_pos ⟨hlo, hhi⟩)

/-- Settles O17: decoding inverts encoding, and the immediate's pattern stands for its value. -/
theorem immediateRoundTrip : Obligations.ImmediateRoundTrip := by
  intro x hlo hhi
  have hx := signed16_encodeImm hlo hhi
  exact ⟨hx, fun rt rs => ⟨⟨_, decode_encode rfl, hx⟩, ⟨_, decode_encode rfl, hx⟩⟩⟩

end Sys2Proof

namespace Sys2Proof.Machine

/-! ## A run inside its program (R85, R87, R166) -/

/-- Only a branch has a delta other than 0, and then it is its signed offset (R139). -/
theorem deltaOf_cases (s : State) (i : Instr) :
    deltaOf s i = 0 ∨ ∃ rs rt off, (i = .beq rs rt off ∨ i = .bne rs rt off) ∧ deltaOf s i = signed16 off := by
  have delta (taken : Bool) (off : Imm16) : branchDelta taken off = 0 ∨ branchDelta taken off = signed16 off := by
    cases taken with
    | false => exact .inl rfl
    | true => exact .inr rfl
  cases i with
  | beq rs rt off => exact (delta _ off).imp_right fun h => ⟨rs, rt, off, .inl rfl, h⟩
  | bne rs rt off => exact (delta _ off).imp_right fun h => ⟨rs, rt, off, .inr rfl, h⟩
  | _ => exact .inl rfl

/-- A word that decodes to a branch is of a branch class, and its taken target is the instruction's (R84, R146). -/
theorem takenTarget_of_decode_branch {w : Word} {i : Instr} {rs rt : RegIdx} {off : Imm16} (hd : decode w = .ok i)
    (hi : i = .beq rs rt off ∨ i = .bne rs rt off) (k : Nat) :
    (classify w = .beq ∨ classify w = .bne) ∧ takenTarget k w = (k : Int) + 1 + signed16 off := by
  have hcls := cls_of_decode hd
  obtain rfl | rfl := hi
  · have hc : classify w = .beq := hcls.symm
    cases (decode_of_beq hc).symm.trans hd
    simp [takenTarget, hc]
  · have hc : classify w = .bne := hcls.symm
    cases (decode_of_bne hc).symm.trans hd
    simp [takenTarget, hc]

/-- An instruction of an image whose branches stay in it leads to an index in `0..N` (R85). -/
theorem next_index_in_program {s : State} {w : Word} {i : Instr} (htargets : TargetsInRange s.image)
    (hf : s.fetch = some w) (hd : decode w = .ok i) :
    0 ≤ s.index + 1 + deltaOf s i ∧ s.index + 1 + deltaOf s i ≤ s.image.length := by
  obtain ⟨hlo, hhi⟩ := running_of_fetch hf
  obtain hdelta | ⟨rs, rt, off, hi, hdelta⟩ := deltaOf_cases s i
  · omega
  · obtain ⟨hbranch, htaken⟩ := takenTarget_of_decode_branch hd hi s.index.toNat
    have hrange := htargets s.index.toNat w (fetch_eq_some_iff.mp hf).2 hbranch
    rw [htaken, Int.toNat_of_nonneg hlo] at hrange
    omega

theorem programInvariant_of_instruction {s : State} {w : Word} {i : Instr} (hs : ProgramInvariant s)
    (hf : s.fetch = some w) (hd : decode w = .ok i) :
    ProgramInvariant ((s.applyWrite (writeOf s i)).advance (deltaOf s i)) := by
  obtain ⟨hm, hlegal, htargets, -, -⟩ := hs
  simpa [ProgramInvariant, hm] using And.intro hlegal (And.intro htargets (next_index_in_program htargets hf hd))

/-- A legal image has no illegal word to fetch (R166). -/
theorem classify_ne_illegal_of_fetch {s : State} {w : Word} (hlegal : LegalImage s.image) (hf : s.fetch = some w) :
    classify w ≠ .illegal := by
  simpa [isLegal] using hlegal w (mem_of_fetch hf)

/-- A clock holds the state or runs an instruction of the image; it finds no illegal word to latch. -/
theorem programInvariant_tick {s : State} (hs : ProgramInvariant s) : ProgramInvariant (tick s) := by
  obtain ⟨e, -⟩ | ⟨w, -, hf, hc, -⟩ | ⟨w, i, -, hf, hd, e⟩ := tick_cases s
  · rwa [e]
  · obtain ⟨-, hlegal, -⟩ := hs
    exact absurd hc (classify_ne_illegal_of_fetch hlegal hf)
  · rw [e]
    exact programInvariant_of_instruction hs hf hd

/-- Settles O54: a step and a clock that move the cursor run an instruction of the image, and it goes to the next index
or to a branch target in range. -/
theorem stepKeepsProgramInvariant : Obligations.StepKeepsProgramInvariant := by
  refine fun s hs => ⟨fun t h => ?_, programInvariant_tick hs⟩
  obtain ⟨w, i, -, hf, hd, rfl⟩ := step_next_cases h
  exact programInvariant_of_instruction hs hf hd

theorem programInvariant_run {s : State} (hs : ProgramInvariant s) (k : Nat) : ProgramInvariant (run k s) := by
  induction k with
  | zero => exact hs
  | succ k ih =>
    rw [run_succ_tick]
    exact programInvariant_tick ih

/-- Settles O52: the launch state of an assembled image meets the invariant of a run inside its program, and every clock
keeps it. -/
theorem assembledRunsStayInTheProgram : Obligations.AssembledRunsStayInTheProgram := by
  intro cfg prog words h
  have hrun := programInvariant_run (programInvariant_load (legalImage_of_image h) (targetsInRange_of_image h))
  refine ⟨fun k => (hrun k).1, fun k => ?_⟩
  obtain ⟨-, -, -, hlo, hhi⟩ := hrun k
  rw [run_image, load_image] at hhi
  exact ⟨hlo, hhi⟩

/-! ## Immediates, shift amounts and branch offsets (R67, R79, R84) -/

theorem checkImmediate_of_in_range {v : Int} (h : -32768 ≤ v ∧ v ≤ 32767) :
    ∃ imm, checkImmediate v = .ok imm ∧ imm.toInt = v :=
  ⟨encodeImm v, if_pos h, signed16_encodeImm h.1 h.2⟩

theorem checkImmediate_eq_error_iff {v : Int} {p : Problem} :
    checkImmediate v = .error p ↔ (v < -32768 ∨ 32767 < v) ∧ p = .error .immediateOutOfRange := by
  rw [checkImmediate]
  split
  case isTrue hv =>
    simp only [reduceCtorEq, false_iff, not_and]
    omega
  case isFalse hv =>
    have hout : v < -32768 ∨ 32767 < v := by omega
    simp [hout, eq_comm]

theorem readImmediate_of_literal {t : Token} {v : Int} (h : literalValue t = some v) :
    readImmediate t = checkImmediate v := by
  rw [readImmediate, h]

theorem readShift_of_literal {t : Token} {v : Int} (h : literalValue t = some v) : readShift t = checkShift v := by
  rw [readShift, h]

theorem checkShift_of_in_range {v : Int} (h : 0 ≤ v ∧ v ≤ 31) :
    ∃ sh : Shamt, checkShift v = .ok sh ∧ (sh.val : Int) = v :=
  ⟨_, dif_pos h, Int.toNat_of_nonneg h.1⟩

theorem checkShift_of_out_of_range {v : Int} (h : v < 0 ∨ 31 < v) :
    checkShift v = .error (.error .invalidShiftAmount) :=
  dif_neg (by omega)

/-- Settles O48: a literal's token is read as the range check of its value. -/
theorem literalRangesAreChecked : Obligations.LiteralRangesAreChecked := by
  intro t v hv
  rw [readImmediate_of_literal hv, readShift_of_literal hv]
  exact ⟨checkImmediate_of_in_range, fun h => checkImmediate_eq_error_iff.mpr ⟨h, rfl⟩, checkShift_of_in_range,
    checkShift_of_out_of_range⟩

theorem branchOffset_of_resolve {table : LabelTable} {current : Nat} {label : Token} {target : Nat}
    (h : resolve table label = some target) :
    branchOffset table current label = checkImmediate ((target : Int) - ((current : Int) + 1)) := by
  rw [branchOffset, h]

theorem branchOffset_of_unresolved {table : LabelTable} {current : Nat} {label : Token}
    (h : resolve table label = none) : branchOffset table current label = .error (.error .unresolvedLabel) := by
  rw [branchOffset, h]

/-- Settles O46: the offset of a resolved label is the range check of `target - (current + 1)`, and the one error of an
absent label is its own. -/
theorem branchOffsetLandsOnTheLabel : Obligations.BranchOffsetLandsOnTheLabel := by
  intro table current label
  refine ⟨fun off h => ?_, fun target ht hlo hhi => ?_, ?_, ?_⟩
  · obtain ⟨target, ht, hland⟩ := target_of_branchOffset h
    rw [signed16] at hland
    exact ⟨target, ht, by omega, hland⟩
  · rw [branchOffset_of_resolve ht]
    exact checkImmediate_of_in_range ⟨hlo, hhi⟩
  · refine ⟨branchOffset_of_unresolved, fun h => ?_⟩
    cases ht : resolve table label with
    | none => rfl
    | some target =>
      rw [branchOffset_of_resolve ht, checkImmediate_eq_error_iff] at h
      simp at h
  · cases ht : resolve table label with
    | none => simp [branchOffset_of_unresolved ht]
    | some target => simp [branchOffset_of_resolve ht, checkImmediate_eq_error_iff]

/-! ## Lines, labels and errors of a program (R76, R80, R86) -/

/-- Settles O47: a line's three operands are read in R77's places and assemble when all three are readable. -/
theorem tokensGoToTheirFields : Obligations.TokensGoToTheirFields := by
  intro table k label a b c x y z imm shamt ha hb
  refine ⟨rfl, fun hc => ?_, fun hc => ⟨?_, ?_⟩, fun hc => ⟨?_, ?_⟩, fun hc => ⟨?_, ?_⟩⟩
  all_goals exact threeOperands_eq_ok_iff.mpr ⟨x, y, _, ha, hb, hc, rfl⟩

/-- In a table without duplicates every declared label resolves to its own line (R81, R82). -/
theorem resolve_of_mem {table : LabelTable} (hu : labelsUnique table = true) {name : Token} {k : Nat}
    (h : (name, k) ∈ table) : resolve table name = some k := by
  induction table with
  | nil => simp at h
  | cons e es ih =>
    obtain ⟨hall, hus⟩ : (∀ e' ∈ es, e'.1 ≠ e.1) ∧ labelsUnique es = true := by simpa [labelsUnique] using hu
    obtain rfl | h := List.mem_cons.mp h
    · simp [resolve]
    · have hne : e.1 ≠ name := (hall _ h).symm
      rw [← ih hus h]
      simp [resolve, hne]

/-- A line's label is in the table under the line's index (R81). -/
theorem mem_labelTable_of_label {ls : List InputLine} {j : Nat} {source : SourceLine} {name : Token}
    (hl : ls[j]? = some (.line source)) (hname : source.label = some name) (k : Nat) :
    (name, k + j) ∈ labelTable k ls := by
  induction ls generalizing j k with
  | nil => simp at hl
  | cons l ls ih =>
    cases j with
    | zero =>
      obtain rfl : l = .line source := by simpa using hl
      simp [labelTable, declareLabel, hname]
    | succ j =>
      have hmem := ih (by simpa using hl) (k + 1)
      rw [Nat.add_right_comm] at hmem
      exact List.mem_append_right _ hmem

theorem programRefusals_of_image {cfg : Config} {prog : List InputLine} {words : List Word}
    (h : assemble cfg prog = .image words) : programRefusals cfg prog = [] :=
  (assemble_eq_image_iff.mp h).1

/-- Each line of an assembled program has its word at its own index (R76). -/
theorem word_of_image_line {cfg : Config} {prog : List InputLine} {words : List Word}
    (h : assemble cfg prog = .image words) {k : Nat} {l : InputLine} (hl : prog[k]? = some l) :
    ∃ i, assembleLine (labelTable 0 prog) k l = .ok i ∧ words[k]? = some (encode i) := by
  obtain ⟨is, his, rfl⟩ := instructions_of_image h
  have hline := getElem?_phaseTwo prog k
  rw [his, hl, List.getElem?_map, Option.map_some] at hline
  obtain ⟨i, hi, hli⟩ := Option.map_eq_some_iff.mp hline
  exact ⟨i, hli.symm, by rw [List.getElem?_map, hi, Option.map_some]⟩

/-- Settles O49: phase 2 gives one word per line, and phase 1's table holds each label once, with its line. -/
theorem oneWordPerSourceLine : Obligations.OneWordPerSourceLine := by
  intro cfg prog words h
  refine ⟨length_of_image h, fun k l hl => ⟨word_of_image_line h hl, ?_⟩⟩
  rintro source name rfl hname
  obtain ⟨hunique, -⟩ := programRefusals_eq_nil_iff.mp (programRefusals_of_image h)
  have hmem := mem_labelTable_of_label hl hname 0
  rw [Nat.zero_add] at hmem
  exact resolve_of_mem hunique hmem

/-- Settles O51: each word is the canonical word of an instruction, each branch goes to a line a label names, and a
program over capacity is refused. -/
theorem assembledImagesAreWellFormed : Obligations.AssembledImagesAreWellFormed := by
  intro cfg prog words h
  refine ⟨legalImage_of_image h, ?_, targetsInRange_of_image h, ?_⟩
  · obtain ⟨is, -, rfl⟩ := instructions_of_image h
    intro w hw
    obtain ⟨i, -, rfl⟩ := List.mem_map.mp hw
    exact isCanonical_encode i
  · obtain ⟨-, hcapacity, -⟩ := programRefusals_eq_nil_iff.mp (programRefusals_of_image h)
    rwa [WithinCapacity, length_of_image h]

theorem launch_eq_none_iff {o : AsmOutcome} : launch o = none ↔ ∀ words, o ≠ .image words := by
  cases o <;> simp [launch]

theorem mem_errorsAt {e : AsmError} {ps : List Problem} (h : .error e ∈ ps) (k : Nat) : ⟨k, e⟩ ∈ errorsAt k ps := by
  induction ps with
  | nil => simp at h
  | cons p ps ih =>
    obtain rfl | hps := List.mem_cons.mp h
    · exact List.mem_cons_self
    · cases p with
      | error e' => exact List.mem_cons_of_mem _ (ih hps)
      | refusal r => exact ih hps

/-- Every error of a line is reported with the line's index (R86). -/
theorem mem_reportsFrom {rs : List LineResult} {j : Nat} {ps : List Problem} {e : AsmError}
    (hj : rs[j]? = some (.error ps)) (he : .error e ∈ ps) (k : Nat) : ⟨k + j, e⟩ ∈ reportsFrom k rs := by
  induction rs generalizing j k with
  | nil => simp at hj
  | cons r rs ih =>
    cases j with
    | zero =>
      obtain rfl : r = .error ps := by simpa using hj
      exact List.mem_append_left _ (mem_errorsAt he k)
    | succ j =>
      have hmem := ih (by simpa using hj) (k + 1)
      rw [Nat.add_right_comm] at hmem
      cases r with
      | ok i => exact hmem
      | error qs => exact List.mem_append_right _ hmem

/-- Where nothing is refused, a report makes the assembly fail. -/
theorem settleAssembly_of_mem_reports {reports : List AsmReport} {r : AsmReport} (h : r ∈ reports)
    (words : List Word) : settleAssembly [] reports words = .failed reports := by
  cases reports with
  | nil => simp at h
  | cons r' rs => rfl

/-- Settles O50: an image would have a word for the line, and where nothing is refused the reports hold every error. -/
theorem anyErrorAbortsTheRun : Obligations.AnyErrorAbortsTheRun := by
  intro cfg prog k l ps e hl hline he
  constructor
  · refine launch_eq_none_iff.mpr fun words himage => ?_
    obtain ⟨i, hok, -⟩ := word_of_image_line himage hl
    exact absurd (hline.symm.trans hok) (by simp)
  · intro hprogram hlines
    have hresult : (phaseTwo prog)[k]? = some (.error ps) := by
      rw [getElem?_phaseTwo, hl, Option.map_some, hline]
    have hmem := mem_reportsFrom hresult he 0
    rw [Nat.zero_add] at hmem
    refine ⟨_, ?_, hmem⟩
    rw [assemble, hprogram, hlines]
    exact settleAssembly_of_mem_reports hmem _

@[simp] theorem lineRefusals_map_ok (is : List Instr) : lineRefusals (is.map .ok) = [] := by
  induction is with
  | nil => rfl
  | cons i is ih => exact ih

@[simp] theorem reportsFrom_map_ok (k : Nat) (is : List Instr) : reportsFrom k (is.map .ok) = [] := by
  induction is generalizing k with
  | nil => rfl
  | cons i is ih => exact ih (k + 1)

/-- Where nothing is refused and every line has an instruction, the image is their words (R76, R83). -/
theorem assemble_of_instructions {cfg : Config} {prog : List InputLine} {is : List Instr}
    (hprogram : programRefusals cfg prog = []) (his : phaseTwo prog = is.map .ok) :
    assemble cfg prog = .image (is.map encode) := by
  simp [assemble_eq_image_iff, hprogram, his]

/-- Where every line assembles, phase 2 gives instructions only. -/
theorem exists_instructions_of_lines {prog : List InputLine}
    (h : ∀ (k : Nat) l, prog[k]? = some l → ∃ i, assembleLine (labelTable 0 prog) k l = .ok i) :
    ∃ is : List Instr, phaseTwo prog = is.map .ok := by
  have hall : ∀ r ∈ phaseTwo prog, ∃ i, Except.ok i = r := by
    intro r hr
    obtain ⟨k, hk⟩ := List.mem_iff_getElem?.mp hr
    rw [getElem?_phaseTwo] at hk
    obtain ⟨l, hl, rfl⟩ := Option.map_eq_some_iff.mp hk
    obtain ⟨i, hi⟩ := h k l hl
    exact ⟨i, hi.symm⟩
  obtain ⟨is, his⟩ : phaseTwo prog ∈ Set.range (List.map Except.ok) := by
    rw [Set.range_list_map]
    exact hall
  exact ⟨is, his.symm⟩

/-- Settles O56: an image is the words of every line of a program that is not refused, and such a program gives one. -/
theorem assemblySucceedsOnCleanPrograms : Obligations.AssemblySucceedsOnCleanPrograms := by
  intro cfg prog
  refine ⟨⟨?_, ?_⟩, fun is => assemble_of_instructions, ?_⟩
  · rintro ⟨words, h⟩
    obtain ⟨hunique, hcapacity, hbounds, hform⟩ := programRefusals_eq_nil_iff.mp (programRefusals_of_image h)
    refine ⟨hunique, hcapacity, List.all_eq_true.mp hbounds, List.all_eq_true.mp hform, fun k l hl => ?_⟩
    obtain ⟨i, hi, -⟩ := word_of_image_line h hl
    exact ⟨i, hi⟩
  · rintro ⟨hunique, hcapacity, hbounds, hform, hlines⟩
    obtain ⟨is, his⟩ := exists_instructions_of_lines hlines
    have hprogram : programRefusals cfg prog = [] := programRefusals_eq_nil_iff.mpr
      ⟨hunique, hcapacity, List.all_eq_true.mpr hbounds, List.all_eq_true.mpr hform⟩
    exact ⟨_, assemble_of_instructions hprogram his⟩
  · simp [launch_eq_some_iff]

end Sys2Proof.Machine

namespace Sys2Proof

/-! ## The fields and the classification (R103, R104) -/

/-- Sign extension copies the 16 bits of the immediate and repeats its sign bit above them (R104). -/
theorem getLsbD_sext32_imm16Of (w : Word) {k : Nat} (hk : k < 32) :
    (Machine.sext32 (imm16Of w)).getLsbD k = if k < 16 then w.getLsbD k else w.getLsbD 15 := by
  rw [Machine.sext32, BitVec.getLsbD_signExtend]
  by_cases hlow : k < 16
  · simp [imm16Of, hk, hlow]
  · simp [imm16Of, hk, hlow, BitVec.msb_eq_getLsbD_last]

/-- Settles O6: the fields as numbers; the opcode needs no mask, since nothing stands above it. -/
theorem fieldsAreShiftAndMask : Obligations.FieldsAreShiftAndMask := by
  intro w
  have hopcode : (opcodeOf w).toNat = w.toNat / 2 ^ 26 := by
    have hw := w.isLt
    rw [toNat_opcodeOf]
    omega
  exact ⟨hopcode, val_rsOf w, val_rtOf w, val_rdOf w, val_shamtOf w, toNat_functOf w, toNat_imm16Of w,
    fun _ => getLsbD_sext32_imm16Of w⟩

/-- The high 6 bits of a word are its opcode. -/
theorem opcodeOf_eq_of_div_eq {w w' : Word} (h : w.toNat / 2 ^ 26 = w'.toNat / 2 ^ 26) : opcodeOf w = opcodeOf w' := by
  apply BitVec.eq_of_toNat_eq
  rw [toNat_opcodeOf, toNat_opcodeOf, h]

/-- An opcode other than 0 settles the class alone (R103). -/
theorem classify_congr_of_opcodeOf_ne_zero {w w' : Word} (hne : opcodeOf w ≠ 0#6) (h : opcodeOf w = opcodeOf w') :
    classify w = classify w' := by
  rw [classify, classify, if_neg (ne_zero_of_opcodeOf rfl hne), if_neg (ne_zero_of_opcodeOf h.symm hne), ← h,
    if_neg hne, if_neg hne]

/-- Settles O9: words that agree in the high 6 bits have the same opcode, and that settles the class. -/
theorem functIsIgnoredOutsideOpcodeZero : Obligations.FunctIsIgnoredOutsideOpcodeZero :=
  fun _ _ hne h => classify_congr_of_opcodeOf_ne_zero hne (opcodeOf_eq_of_div_eq h)

/-! ## Encode of decode (R108) -/

/-- `nop` and `sll $zero $zero 0`, the two sources of the zero word, have the same meaning (R91, R121). -/
theorem exec_nop_eq_exec_sll_zero (s : Machine.State) : Machine.exec .nop s = Machine.exec (.sll 0 0 0) s := by
  have hshift (v : Word) : Machine.shiftLeft32 v 0 = v := by simp [Machine.shiftLeft32]
  show Machine.retire none 0 s = Machine.retire (some (0, Machine.shiftLeft32 (s.readReg 0) 0)) 0 s
  rw [hshift, Machine.retire_eq, Machine.retire_eq, Machine.applyWrite_some, Machine.writeReg_readReg,
    Machine.applyWrite_none]

/-- The canonical word of an instruction decodes to an instruction of the same meaning (R91, R108). -/
theorem exists_decode_encode_exec_eq (i : Instr) :
    ∃ j, decode (encode i) = .ok j ∧ ∀ s, Machine.exec j s = Machine.exec i s := by
  cases hw : i.WellFormed with
  | true => exact ⟨i, decode_encode hw, fun _ => rfl⟩
  | false =>
    obtain rfl := not_wellFormed_iff.mp hw
    exact ⟨.nop, by decide, exec_nop_eq_exec_sll_zero⟩

/-- Settles O13: the encoder emits canonical words only, and it inverts the decoder on them. -/
theorem encodeOfDecode : Obligations.EncodeOfDecode := fun _ i hd =>
  ⟨⟨fun h => h ▸ isCanonical_encode i, fun hcan => encode_of_decode_canonical hcan hd⟩,
    isCanonical_encode i, exists_decode_encode_exec_eq i⟩

/-! ## Sample words (R111) -/

/-- Settles O5: the decoder computes on each word. -/
theorem sampleWordsDecode : Obligations.SampleWordsDecode := by
  unfold Obligations.SampleWordsDecode
  decide

end Sys2Proof

namespace Sys2Proof

theorem decode_eq_nop_iff {w : Word} : decode w = .ok .nop ↔ w = 0#32 :=
  ⟨fun h => classify_eq_nop_iff.mp (cls_of_decode h).symm, fun h => decode_of_nop (classify_eq_nop_iff.mpr h)⟩

end Sys2Proof

namespace Sys2Proof.Machine

/-! ## Completion and frame of an instruction, by its write (R145, R146) -/

theorem exec_of_writeOf_none {i : Instr} {s : State} (hw : writeOf s i = none) :
    ∃ t, exec i s = .next t ∧ t.index = s.index + 1 + deltaOf s i ∧ UnchangedButCursor s t := by
  rw [exec_eq_retire, retire_eq, hw, applyWrite_none]
  exact ⟨_, rfl, rfl, fun _ => rfl, rfl, rfl⟩

/-- No instruction both writes a register and branches (R139, R145). -/
theorem deltaOf_of_writeOf_some {i : Instr} {s : State} {o : RegIdx × Word} (hw : writeOf s i = some o) :
    deltaOf s i = 0 := by
  cases i with
  | beq rs rt off => simp [writeOf] at hw
  | bne rs rt off => simp [writeOf] at hw
  | _ => rfl

theorem exec_of_writeOf_some {i : Instr} {s : State} {r : RegIdx} {v : Word} (hw : writeOf s i = some (r, v)) :
    ∃ t, exec i s = .next t ∧ t.readReg r = v ∧ t.index = s.index + 1 ∧ UnchangedBut r s t := by
  rw [exec_eq_retire, retire_eq, deltaOf_of_writeOf_some hw, hw, applyWrite_some]
  exact ⟨_, rfl, readReg_writeReg_self s r v, Int.add_zero _, fun _ hq => readReg_writeReg_of_ne s r v hq, rfl, rfl⟩

/-! ## The ALU's results as numbers (R13) -/

theorem toNat_sum32 (a b : Word) : (sum32 a b).toNat = (a.toNat + b.toNat) % 2 ^ 32 :=
  BitVec.toNat_add a b

theorem toNat_shiftLeft32 (a : Word) (n : Shamt) : (shiftLeft32 a n).toNat = a.toNat * 2 ^ n.val % 2 ^ 32 := by
  rw [shiftLeft32, BitVec.toNat_shiftLeft, Nat.shiftLeft_eq]

theorem toNat_shiftRight32 (a : Word) (n : Shamt) : (shiftRight32 a n).toNat = a.toNat / 2 ^ n.val := by
  rw [shiftRight32, BitVec.toNat_ushiftRight, Nat.shiftRight_eq_div_pow]

/-! ## `nop` and the R-type-like instructions (R120 to R126) -/

/-- An unmarked state outside the image has ended normally (R150, R169). -/
theorem status_of_terminal {s : State} (hm : s.faultMark = none) (h : s.Terminal) : status s = .finished := by
  have hstopped : ¬ s.Running := by omega
  simp [status, hm, hstopped]

/-- Settles O18: `nop` has no write and delta 0, so after the last word the cursor stands at the end of the image. -/
theorem nopOnlyAdvances : Obligations.NopOnlyAdvances := by
  refine ⟨fun w => decode_eq_nop_iff, rfl, fun _ _ _ _ _ _ => rfl, fun s => ?_, fun s t h hm hlast => ?_⟩
  · obtain ⟨t, hnext, hindex, hframe⟩ := exec_of_writeOf_none (i := .nop) (s := s) rfl
    exact ⟨t, hnext, hindex.trans (Int.add_zero _), hframe⟩
  · obtain rfl := exec_next_iff.mp h
    refine status_of_terminal hm (.inr ?_)
    simp [writeOf, deltaOf, hlast]

/-- Settles O19: the one write of `add`, and the sum as a number. -/
theorem addWritesTheSum : Obligations.AddWritesTheSum := by
  intro rd rs rt s
  obtain ⟨t, hnext, hresult, hindex, hframe⟩ := exec_of_writeOf_some (i := .add rd rs rt) (s := s) rfl
  exact ⟨t, hnext, hresult ▸ toNat_sum32 _ _, hindex, hframe⟩

/-- Settles O20: the one write of `sll`, and the left shift as a number. -/
theorem sllWritesTheShift : Obligations.SllWritesTheShift := by
  intro rd rt shamt s
  obtain ⟨t, hnext, hresult, hindex, hframe⟩ := exec_of_writeOf_some (i := .sll rd rt shamt) (s := s) rfl
  exact ⟨t, hnext, hresult ▸ toNat_shiftLeft32 _ _, hindex, hframe⟩

/-- Settles O21: the one write of `srl`, and the right shift as a number. -/
theorem srlWritesTheShift : Obligations.SrlWritesTheShift := by
  intro rd rt shamt s
  obtain ⟨t, hnext, hresult, hindex, hframe⟩ := exec_of_writeOf_some (i := .srl rd rt shamt) (s := s) rfl
  exact ⟨t, hnext, hresult ▸ toNat_shiftRight32 _ _, hindex, hframe⟩

/-- Settles O26: `sll $zero $zero 0` writes register 0 back unchanged. -/
theorem zeroWordReadingsAgree : Obligations.ZeroWordReadingsAgree :=
  fun s => (exec_nop_eq_exec_sll_zero s).symm

end Sys2Proof.Machine

namespace Sys2Proof.Machine

/-! ## The sign-extended immediate (R66), and the ALU's results with it -/

/-- The extended pattern stands for the same signed number as the 16-bit one (R66), so that number is what it adds. -/
theorem toNat_sext32 (imm : Imm16) : ((sext32 imm).toNat : Int) = imm.toInt % 2 ^ 32 := by
  rw [sext32, BitVec.signExtend, BitVec.toNat_ofInt]
  exact Int.toNat_of_nonneg (Int.emod_nonneg _ (by decide))

theorem toNat_sum32_sext32 (a : Word) (imm : Imm16) :
    ((sum32 a (sext32 imm)).toNat : Int) = (a.toNat + imm.toInt) % 2 ^ 32 :=
  calc ((sum32 a (sext32 imm)).toNat : Int)
    _ = (a.toNat + (sext32 imm).toNat) % 2 ^ 32 := congrArg Nat.cast (toNat_sum32 a _)
    _ = (a.toNat + imm.toInt % 2 ^ 32) % 2 ^ 32 := by rw [toNat_sext32]
    _ = (a.toNat + imm.toInt) % 2 ^ 32 := Int.add_emod_emod ..

theorem imm16Of_setWidth (imm : Imm16) : imm16Of (imm.setWidth 32) = imm := by
  refine BitVec.eq_of_toNat_eq ?_
  have himm := imm.isLt
  rw [toNat_imm16Of, BitVec.toNat_setWidth]
  omega

/-- R104's rule for the field of a word, read for every immediate: a word holds it as its low half. -/
theorem getLsbD_sext32 (imm : Imm16) {k : Nat} (hk : k < 32) :
    (sext32 imm).getLsbD k = if k < 16 then imm.getLsbD k else imm.getLsbD 15 := by
  have hfield := getLsbD_sext32_imm16Of (imm.setWidth 32) hk
  simpa [imm16Of_setWidth, hk] using hfield

theorem getLsbD_and32_sext32 (a : Word) (imm : Imm16) {k : Nat} (hk : k < 32) :
    (and32 a (sext32 imm)).getLsbD k = (a.getLsbD k && if k < 16 then imm.getLsbD k else imm.getLsbD 15) := by
  rw [and32, BitVec.getLsbD_and, getLsbD_sext32 imm hk]

/-! ## The immediate ALU instructions (R130, R132, R133) -/

/-- Settles O22: the one write of `addi`, and the sum with the signed immediate as a number. -/
theorem addiWritesTheSum : Obligations.AddiWritesTheSum := by
  intro rt rs imm s
  obtain ⟨t, hnext, hresult, hindex, hframe⟩ := exec_of_writeOf_some (i := .addi rt rs imm) (s := s) rfl
  exact ⟨t, hnext, hresult ▸ toNat_sum32_sext32 _ _, hindex, hframe⟩

/-- Settles O23: the one write of `andi`, and the mask bit by bit. -/
theorem andiWritesTheMaskedValue : Obligations.AndiWritesTheMaskedValue := by
  intro rt rs imm s
  obtain ⟨t, hnext, hresult, hindex, hframe⟩ := exec_of_writeOf_some (i := .andi rt rs imm) (s := s) rfl
  exact ⟨t, hnext, fun _ => hresult ▸ getLsbD_and32_sext32 _ _, hindex, hframe⟩

end Sys2Proof.Machine

namespace Sys2Proof

/-! ## The opcode alone gives an I-type-like class (R69, R103) -/

/-- A word with the opcode of an I-type-like row is of the row's class. -/
theorem classify_of_opcodeOf {w : Word} {op : BitVec 6} {c : Class} (h : opcodeOf w = op) (hop : op ≠ 0#6)
    (hr : ⟨c, 0xFC000000#32, op.setWidth 32 <<< 26⟩ ∈ opcodeTable) : classify w = c :=
  classify_of_mask (ne_zero_of_opcodeOf h hop) ((and_opcodeMask_eq_iff op).mpr h) hr

end Sys2Proof

namespace Sys2Proof.Machine

/-! ## The branches (R139, R140, R142) -/

theorem deltaOf_beq (s : State) (rs rt : RegIdx) (off : Imm16) :
    deltaOf s (.beq rs rt off) = if s.readReg rt = s.readReg rs then off.toInt else 0 := by
  simp [deltaOf, branchDelta, equal32, signed16]

theorem deltaOf_bne (s : State) (rs rt : RegIdx) (off : Imm16) :
    deltaOf s (.bne rs rt off) = if s.readReg rt = s.readReg rs then 0 else off.toInt := by
  simp [deltaOf, branchDelta, differ32, signed16]

/-- A delta of -1 leads back to the instruction itself. -/
theorem advance_neg_one (s : State) : s.advance (-1) = s := by
  rw [State.advance, Int.add_neg_cancel_right]

/-- An instruction that writes nothing and returns to itself leaves the state as it was. -/
theorem exec_eq_self {i : Instr} {s : State} (hw : writeOf s i = none) (hd : deltaOf s i = -1) :
    exec i s = .next s := by
  rw [exec_eq_retire, retire_eq, hw, hd, applyWrite_none, advance_neg_one]

theorem terminal_iff_of_image_eq {s t : State} (h : t.image = s.image) :
    t.Terminal ↔ t.index < 0 ∨ (s.image.length : Int) ≤ t.index := by
  rw [State.Terminal, h]

/-- An instruction that writes nothing moves the cursor by its delta; a target outside the image ends the run. -/
theorem exec_move_of_writeOf_none {i : Instr} {s : State} (hw : writeOf s i = none) :
    ∃ t, exec i s = .next t ∧ UnchangedButCursor s t ∧ t.index = s.index + 1 + deltaOf s i ∧
      (s.faultMark = none → t.index < 0 ∨ (s.image.length : Int) ≤ t.index → status t = .finished) := by
  obtain ⟨t, hnext, hindex, hframe⟩ := exec_of_writeOf_none hw
  have ⟨_, himage, hmark⟩ := hframe
  exact ⟨t, hnext, hframe, hindex,
    fun hm hout => status_of_terminal (hmark.trans hm) ((terminal_iff_of_image_eq himage).mpr hout)⟩

/-- Settles O24: `beq` writes nothing, and its delta is the offset exactly on equal registers. -/
theorem beqBranchesOnEqual : Obligations.BeqBranchesOnEqual := by
  refine ⟨fun w h => decode_of_beq (classify_of_opcodeOf h (by decide) (by decide)), toNat_packI 4,
    fun _ _ _ _ _ _ rs rt off ha hb hc => threeOperands_eq_ok_iff.mpr ⟨rs, rt, off, ha, hb, hc, rfl⟩,
    fun rs rt off s => ?_, fun r off s => ?_, fun rs rt s h => ?_⟩
  · obtain ⟨t, hnext, hframe, hindex, hend⟩ := exec_move_of_writeOf_none (i := .beq rs rt off) (s := s) rfl
    rw [deltaOf_beq] at hindex
    exact ⟨t, hnext, hframe, fun h => by rw [hindex, if_pos h],
      fun h => by rw [hindex, if_neg h, Int.add_zero], hend⟩
  · obtain ⟨t, hnext, -, hindex, -⟩ := exec_move_of_writeOf_none (i := .beq r r off) (s := s) rfl
    exact ⟨t, hnext, by rw [hindex, deltaOf_beq, if_pos rfl]⟩
  · exact exec_eq_self rfl ((deltaOf_beq s rs rt 0xFFFF).trans (if_pos h))

/-- Settles O25: `bne` writes nothing, and its delta is the offset exactly on different registers. -/
theorem bneBranchesOnDifferent : Obligations.BneBranchesOnDifferent := by
  refine ⟨fun w h => decode_of_bne (classify_of_opcodeOf h (by decide) (by decide)), toNat_packI 5,
    fun _ _ _ _ _ _ rs rt off ha hb hc => threeOperands_eq_ok_iff.mpr ⟨rs, rt, off, ha, hb, hc, rfl⟩,
    fun rs rt off s => ?_, fun r off s => ?_, fun rs rt s h => ?_⟩
  · obtain ⟨t, hnext, hframe, hindex, hend⟩ := exec_move_of_writeOf_none (i := .bne rs rt off) (s := s) rfl
    rw [deltaOf_bne] at hindex
    exact ⟨t, hnext, hframe, fun h => by rw [hindex, if_neg h],
      fun h => by rw [hindex, if_pos h, Int.add_zero], hend⟩
  · obtain ⟨t, hnext, -, hindex, -⟩ := exec_move_of_writeOf_none (i := .bne r r off) (s := s) rfl
    exact ⟨t, hnext, by rw [hindex, deltaOf_bne, if_pos rfl, Int.add_zero]⟩
  · exact exec_eq_self rfl ((deltaOf_bne s rs rt 0xFFFF).trans (if_neg h))

/-! ## The step of a legal word (R144 to R146) -/

theorem step_of_decode {s : State} {w : Word} {i : Instr} (hm : s.faultMark = none) (hf : s.fetch = some w)
    (hd : decode w = .ok i) : step s = exec i s := by
  rw [step_of_fetch hm hf, executeWord, hd]

theorem step_of_illegal {s : State} {w : Word} (hm : s.faultMark = none) (hf : s.fetch = some w)
    (hc : classify w = .illegal) : step s = .fault (.illegalWord s.index w) := by
  obtain ⟨e, hd⟩ := decode_error_iff.mpr hc
  rw [step_of_fetch hm hf, executeWord, hd]
  rfl

/-- Settles O28: the fetch reads the word at the cursor, and the step runs what it decodes to. -/
theorem stepRunsTheDecodedInstruction : Obligations.StepRunsTheDecodedInstruction :=
  fun _ _ _ hm hlo hw hd => step_of_decode hm (fetch_eq_some_iff.mpr ⟨hlo, hw⟩) hd

/-- Advancing the cursor by `1 + delta` advances the derived pc by `4 + 4*delta`, modulo 2^32 (R25, R146, D9). -/
theorem pc_of_index_eq (cfg : Config) {s t : State} {d : Int} (h : t.index = s.index + 1 + d) :
    pc cfg t = pc cfg s + BitVec.ofInt 32 (4 + 4 * d) := by
  rw [pc, pc, h, BitVec.add_assoc, ← BitVec.ofInt_add]
  ring_nf

/-- An instruction that is no branch has delta 0 (R145). -/
theorem deltaOf_of_not_branch {i : Instr} (s : State) (hbeq : i.cls ≠ .beq) (hbne : i.cls ≠ .bne) :
    deltaOf s i = 0 := by
  obtain h | ⟨rs, rt, off, rfl | rfl, -⟩ := deltaOf_cases s i
  · exact h
  · exact absurd rfl hbeq
  · exact absurd rfl hbne

/-- Settles O32: the step ends in the instruction's own delta. -/
theorem everyStepAdvancesByDelta : Obligations.EveryStepAdvancesByDelta := by
  intro s w i hm hf hd
  have hindex : ((s.applyWrite (writeOf s i)).advance (deltaOf s i)).index = s.index + 1 + deltaOf s i := by simp
  refine ⟨_, deltaOf s i, (step_of_decode hm hf hd).trans (exec_next_iff.mpr rfl), hindex,
    fun cfg => pc_of_index_eq cfg hindex, deltaOf_of_not_branch s, ?_, ?_⟩
  · rintro rs rt off rfl
    exact deltaOf_beq s rs rt off
  · rintro rs rt off rfl
    exact deltaOf_bne s rs rt off

section AfterStep
variable {s : State} {o : Option (RegIdx × Word)} (d : Int)

theorem regs_after_no_write (h : o = none) : ((s.applyWrite o).advance d).regs = s.regs := by
  rw [h]
  rfl

theorem readReg_after_write {r : RegIdx} {v : Word} (h : o = some (r, v)) :
    ((s.applyWrite o).advance d).readReg r = v ∧
      ∀ q, q ≠ r → ((s.applyWrite o).advance d).readReg q = s.readReg q := by
  rw [h]
  exact ⟨readReg_writeReg_self s r v, fun q hq => readReg_writeReg_of_ne s r v hq⟩

end AfterStep

/-- Settles O33: a step runs one instruction; its write, if any, is of one register, and then its delta is 0. -/
theorem atMostOneRegisterIsWritten : Obligations.AtMostOneRegisterIsWritten := by
  intro s t h
  obtain ⟨w, i, hm, -, -, rfl⟩ := step_next_cases h
  cases hw : writeOf s i with
  | none => exact ⟨⟨0, fun _ _ => rfl⟩, fun _ => regs_after_no_write _ rfl, by simp, by simp [hm]⟩
  | some o =>
    refine ⟨⟨o.1, (readReg_after_write _ rfl).2⟩, fun hmoved => ?_, by simp, by simp [hm]⟩
    simp [deltaOf_of_writeOf_some hw] at hmoved

/-! ## The end of a run and the branch targets (R149, R150, R152) -/

theorem status_eq_finished_iff {s : State} (hm : s.faultMark = none) : status s = .finished ↔ s.Terminal := by
  refine ⟨fun h => ?_, status_of_terminal hm⟩
  by_contra hin
  have hr : s.Running := by omega
  simp [status, hm, hr] at h

theorem status_eq_running_iff {s : State} : status s = .running ↔ s.faultMark = none ∧ s.Running := by
  cases hm : s.faultMark <;> simp [status, hm]

/-- An unmarked state has neither a next state nor a fault exactly where it fetches nothing (R150). -/
theorem terminal_iff_no_step {s : State} (hm : s.faultMark = none) :
    s.Terminal ↔ (∀ t, step s ≠ .next t) ∧ ∀ f, step s ≠ .fault f := by
  rw [← fetch_eq_none_iff_terminal]
  obtain ⟨f, hmarked, -⟩ | ⟨-, hf, e⟩ | ⟨w, -, hf, -, e⟩ | ⟨w, i, -, hf, -, e⟩ := step_outcomes s
  · simp [hm] at hmarked
  · simp [hf, e]
  · simp [hf, e]
  · simp [hf, e, exec_eq_retire, retire_eq]

/-- Settles O30: outside the image nothing is fetched, so the step answers neither a state nor a fault, and the clock
holds the state. -/
theorem terminalStatesHaveNoStep : Obligations.TerminalStatesHaveNoStep := fun _ hm =>
  ⟨terminal_iff_no_step hm, (status_eq_finished_iff hm).symm,
    fun hout => run_of_tick_eq (tick_of_no_fetch hm (fetch_eq_none_iff_terminal.mpr hout))⟩

/-- A taken branch writes nothing, and its delta is its offset (R139). -/
theorem taken_branch {s : State} {i : Instr} {rs rt : RegIdx} {off : Imm16}
    (h : i = .beq rs rt off ∧ s.readReg rt = s.readReg rs ∨ i = .bne rs rt off ∧ s.readReg rt ≠ s.readReg rs) :
    writeOf s i = none ∧ deltaOf s i = off.toInt := by
  obtain ⟨rfl, heq⟩ | ⟨rfl, hne⟩ := h
  · exact ⟨rfl, (deltaOf_beq s rs rt off).trans (if_pos heq)⟩
  · exact ⟨rfl, (deltaOf_bne s rs rt off).trans (if_neg hne)⟩

/-- Settles O35: a taken branch completes at its target, and only the next fetch looks whether the image has it. -/
theorem branchTargetsAreNotChecked : Obligations.BranchTargetsAreNotChecked := by
  intro s w i rs rt off hm hf hd htaken
  obtain ⟨hwrite, hdelta⟩ := taken_branch htaken
  obtain ⟨t, hnext, ⟨-, himage, hmark⟩, hindex, hend⟩ := exec_move_of_writeOf_none hwrite
  rw [hdelta] at hindex
  refine ⟨t, (step_of_decode hm hf hd).trans hnext, hindex, fun hout => ?_, fun hlo => ?_⟩
  · obtain ⟨hstate, hfault⟩ :=
      (terminal_iff_no_step (hmark.trans hm)).mp ((terminal_iff_of_image_eq himage).mpr hout)
    exact ⟨hstate, hfault, hend hm hout⟩
  · rw [fetch_of_index_nonneg hlo, himage, hindex]

/-- Settles O36: the branch is always taken and leads back to itself, so one clock holds the state, which is running. -/
theorem branchToSelfLoopsForEver : Obligations.BranchToSelfLoopsForEver := by
  intro s w r hm hf hd k
  have hself : exec (.beq r r 0xFFFF) s = .next s :=
    exec_eq_self rfl ((deltaOf_beq s r r 0xFFFF).trans (if_pos rfl))
  have hrun : run k s = s := run_of_tick_eq (tick_of_next ((step_of_decode hm hf hd).trans hself)) k
  exact ⟨hrun, hrun.symm ▸ status_eq_running_iff.mpr ⟨hm, running_of_fetch hf⟩⟩

end Sys2Proof.Machine

namespace Sys2Proof.Machine

/-! ## The step as the pseudocode writes it (R147) -/

section PseudocodeFields
variable (w : Word)

/-- The pseudocode tests the opcode and the funct as numbers. -/
theorem shiftRight_eq_iff_opcodeOf {n : Nat} (hn : n < 64) :
    w.toNat >>> 26 = n ↔ opcodeOf w = BitVec.ofNat 6 n := by
  have hw := w.isLt
  rw [← BitVec.toNat_inj, toNat_opcodeOf, BitVec.toNat_ofNat, Nat.shiftRight_eq_div_pow]
  omega

theorem and_eq_iff_functOf {n : Nat} (hn : n < 64) : w.toNat &&& 63 = n ↔ functOf w = BitVec.ofNat 6 n := by
  rw [← BitVec.toNat_inj, toNat_functOf, BitVec.toNat_ofNat, Nat.and_two_pow_sub_one_eq_mod w.toNat 6]
  omega

theorem ofNat_shiftRight_rs : Fin.ofNat 32 (w.toNat >>> 21) = rsOf w :=
  Fin.ext (by rw [val_rsOf, Fin.val_ofNat, Nat.shiftRight_eq_div_pow])

theorem ofNat_shiftRight_rt : Fin.ofNat 32 (w.toNat >>> 16) = rtOf w :=
  Fin.ext (by rw [val_rtOf, Fin.val_ofNat, Nat.shiftRight_eq_div_pow])

theorem ofNat_shiftRight_rd : Fin.ofNat 32 (w.toNat >>> 11) = rdOf w :=
  Fin.ext (by rw [val_rdOf, Fin.val_ofNat, Nat.shiftRight_eq_div_pow])

theorem shiftRight_and_shamt : (w.toNat >>> 6) &&& 31 = (shamtOf w).val := by
  rw [val_shamtOf, Nat.shiftRight_eq_div_pow]
  exact Nat.and_two_pow_sub_one_eq_mod _ 5

/-- The pseudocode's signed offset is the immediate's signed number (R66). -/
theorem signed_and_eq_toInt_imm16Of :
    (if w.toNat &&& 0xFFFF < 32768 then ((w.toNat &&& 0xFFFF : Nat) : Int) else (w.toNat &&& 0xFFFF : Nat) - 65536) =
      (imm16Of w).toInt := by
  rw [BitVec.toInt_eq_toNat_cond, toNat_imm16Of, Nat.and_two_pow_sub_one_eq_mod w.toNat 16]
  split_ifs <;> omega

end PseudocodeFields

/-- Settles O29: the pseudocode's numbers are the fields of the word, its tests are the decoder's, and in each of the
nine cases its arm is the meaning of the instruction the decoder answers, or the fault. -/
theorem stepFollowsThePseudocode : Obligations.StepFollowsThePseudocode := by
  intro s w hm hlo hw
  have hzero : w.toNat = 0 ↔ w = 0#32 := BitVec.toNat_inj (y := 0#32)
  have hbeq : (if s.regs[rtOf w] = s.regs[rsOf w] then (imm16Of w).toInt else 0) =
      deltaOf s (.beq (rsOf w) (rtOf w) (imm16Of w)) := (deltaOf_beq ..).symm
  have hbne : (if s.regs[rtOf w] = s.regs[rsOf w] then 0 else (imm16Of w).toInt) =
      deltaOf s (.bne (rsOf w) (rtOf w) (imm16Of w)) := (deltaOf_bne ..).symm
  simp (disch := decide) only [step_of_fetch hm (fetch_eq_some_iff.mpr ⟨hlo, hw⟩), signed_and_eq_toInt_imm16Of,
    ofNat_shiftRight_rs, ofNat_shiftRight_rt, ofNat_shiftRight_rd, shiftRight_and_shamt, hzero, ne_eq, ite_not,
    shiftRight_eq_iff_opcodeOf, and_eq_iff_functOf, hbeq, hbne]
  rw [executeWord, decode, classify]
  split_ifs
  all_goals rfl

/-! ## The trace (R154) -/

theorem traceEntry_of_decode {s : State} {w : Word} {i : Instr} (hm : s.faultMark = none) (hf : s.fetch = some w)
    (hd : decode w = .ok i) : traceEntry s = some ⟨s.index, i.cls, writeOf s i⟩ := by
  simp [traceEntry, hm, hf, hd]

theorem traceEntry_of_illegal {s : State} {w : Word} (hf : s.fetch = some w) (hc : classify w = .illegal) :
    traceEntry s = none := by
  obtain ⟨e, hd⟩ := decode_error_iff.mpr hc
  cases hm : s.faultMark <;> simp [traceEntry, hm, hf, hd]

/-- A state without a next state has no trace entry, and one clock later it still has no next state. -/
theorem stopped_of_no_next {s : State} (h : ∀ t, step s ≠ .next t) :
    traceEntry s = none ∧ ∀ t, step (tick s) ≠ .next t := by
  obtain ⟨f, hm, e⟩ | ⟨hm, hf, e⟩ | ⟨w, hm, hf, hc, e⟩ | ⟨w, i, -, -, -, e⟩ := step_outcomes s
  · exact ⟨by simp [traceEntry, hm], by rwa [tick_of_marked hm]⟩
  · exact ⟨by simp [traceEntry, hf], by rwa [tick_of_no_fetch hm hf]⟩
  · refine ⟨traceEntry_of_illegal hf hc, fun t => ?_⟩
    rw [tick_of_fault e, step_of_marked (latchFault_faultMark ..)]
    exact nofun
  · exact absurd (e.trans (exec_next_iff.mpr rfl)) (h _)

theorem trace_of_no_next {s : State} (h : ∀ t, step s ≠ .next t) (k : Nat) : trace k s = [] := by
  induction k generalizing s with
  | zero => rfl
  | succ k ih =>
    obtain ⟨hentry, hnext⟩ := stopped_of_no_next h
    rw [trace, hentry, ih hnext]
    rfl

theorem trace_succ {s t : State} {e : TraceEntry} (h : step s = .next t) (he : traceEntry s = some e) (k : Nat) :
    trace (k + 1) s = e :: trace k t := by
  rw [trace, he, tick_of_next h]
  rfl

/-- The instructions without a register write (R22's table, R120, R140, R142). -/
theorem writeOf_eq_none_iff {s : State} {i : Instr} :
    writeOf s i = none ↔
      i = .nop ∨ (∃ rs rt off, i = .beq rs rt off) ∨ ∃ rs rt off, i = .bne rs rt off := by
  cases i <;> simp [writeOf]

/-- Settles O38: the entry of a step is made of the decoded instruction's class and write, and the next state holds the
written value; a state without a next state never gets one. -/
theorem traceRecordsEveryStep : Obligations.TraceRecordsEveryStep := by
  refine fun s => ⟨fun t h => ?_, fun h => ⟨(stopped_of_no_next h).1, trace_of_no_next h⟩⟩
  obtain ⟨w, i, hm, hf, hd, rfl⟩ := step_next_cases h
  have hentry := traceEntry_of_decode hm hf hd
  have hwritten {r v} (hw : writeOf s i = some (r, v)) := readReg_after_write (s := s) (deltaOf s i) hw
  have hvalue {r v} (hw : writeOf s i = some (r, v)) :
      writeOf s i = some (r, ((s.applyWrite (writeOf s i)).advance (deltaOf s i)).readReg r) := by
    rw [(hwritten hw).1, hw]
  refine ⟨_, w, i, hentry, hf, hd, rfl, cls_of_decode hd, writeOf_eq_none_iff, ?_, ?_, ?_,
    regs_after_no_write _, fun _ _ => hwritten, trace_succ h hentry⟩
  · rintro rd rs rt rfl
    exact hvalue rfl
  · rintro rd rt shamt (rfl | rfl)
    · exact hvalue rfl
    · exact hvalue rfl
  · rintro rt rs imm (rfl | rfl)
    · exact hvalue rfl
    · exact hvalue rfl

end Sys2Proof.Machine

namespace Sys2Proof.Machine

/-! ## Position independence (R155) -/

/-- `t` runs `s`'s image as a block of a longer one: the same registers, the cursor moved by the block's position, and
faulted exactly if `s` has. -/
structure RunsAsBlock (before after : List Word) (s t : State) : Prop where
  image : t.image = before ++ s.image ++ after
  regs : t.regs = s.regs
  index : t.index = s.index + before.length
  unmarked : t.faultMark = none ↔ s.faultMark = none

/-- A write depends on the registers alone. -/
theorem writeOf_congr {s t : State} (h : t.regs = s.regs) (i : Instr) : writeOf t i = writeOf s i := by
  cases i <;> simp [writeOf, State.readReg, h]

/-- A delta depends on the registers alone. -/
theorem deltaOf_congr {s t : State} (h : t.regs = s.regs) (i : Instr) : deltaOf t i = deltaOf s i := by
  cases i <;> simp [deltaOf, State.readReg, h]

theorem applyWrite_regs_congr {s t : State} (h : t.regs = s.regs) (o : Option (RegIdx × Word)) :
    (t.applyWrite o).regs = (s.applyWrite o).regs := by
  obtain _ | ⟨r, v⟩ := o
  · exact h
  · simp [h]

section RunsAsBlock
variable {before after : List Word} {s t : State}

/-- Inside the block both fetch the same word. -/
theorem RunsAsBlock.fetch {w : Word} (h : RunsAsBlock before after s t) (hf : s.fetch = some w) :
    t.fetch = some w := by
  obtain ⟨hlo, hw⟩ := fetch_eq_some_iff.mp hf
  have hlt := (List.getElem?_eq_some_iff.mp hw).1
  have hto : t.index.toNat = before.length + s.index.toNat := by
    rw [h.index]
    omega
  refine fetch_eq_some_iff.mpr ⟨by rw [h.index]; omega, ?_⟩
  rw [h.image, hto, List.append_assoc, List.getElem?_append_right (Nat.le_add_right ..), Nat.add_sub_cancel_left,
    List.getElem?_append_left hlt, hw]

theorem RunsAsBlock.latchFault (h : RunsAsBlock before after s t) (f g : Fault) :
    RunsAsBlock before after (s.latchFault f) (t.latchFault g) :=
  ⟨h.image, h.regs, h.index, by simp⟩

theorem RunsAsBlock.instruction (h : RunsAsBlock before after s t) (i : Instr) :
    RunsAsBlock before after ((s.applyWrite (writeOf s i)).advance (deltaOf s i))
      ((t.applyWrite (writeOf t i)).advance (deltaOf t i)) := by
  rw [writeOf_congr h.regs, deltaOf_congr h.regs]
  refine ⟨by simp [h.image], applyWrite_regs_congr h.regs _, ?_, by simp [h.unmarked]⟩
  simp only [advance_index, applyWrite_index, h.index]
  omega

/-- One clock inside the block keeps the correspondence: both run the same instruction, or both fault. -/
theorem RunsAsBlock.tick (h : RunsAsBlock before after s t) (hs : status s = .running) :
    RunsAsBlock before after (tick s) (tick t) := by
  obtain ⟨hm, hr⟩ := status_eq_running_iff.mp hs
  obtain ⟨-, hmarked | hf⟩ | ⟨w, -, hf, hc, e⟩ | ⟨w, i, -, hf, hd, e⟩ := tick_cases s
  · exact absurd hm hmarked
  · have hterminal := fetch_eq_none_iff_terminal.mp hf
    omega
  · rw [e, tick_of_fault (step_of_illegal (h.unmarked.mpr hm) (h.fetch hf) hc)]
    exact h.latchFault _ _
  · rw [e, tick_of_next ((step_of_decode (h.unmarked.mpr hm) (h.fetch hf) hd).trans (exec_next_iff.mpr rfl))]
    exact h.instruction i

theorem RunsAsBlock.run (h : RunsAsBlock before after s t) (n : Nat)
    (hs : ∀ k, k < n → status (run k s) = .running) : RunsAsBlock before after (run n s) (run n t) := by
  induction n with
  | zero => exact h
  | succ n ih =>
    rw [run_succ_tick, run_succ_tick]
    exact (ih fun k hk => hs k (Nat.lt_succ_of_lt hk)).tick (hs n (Nat.lt_succ_self n))

end RunsAsBlock

/-- Settles O44: the correspondence holds at the start, and every clock inside the block keeps it. -/
theorem codeIsPositionIndependent : Obligations.CodeIsPositionIndependent := by
  intro s t before after n himage hregs hindex hs ht hrunning
  have hrun := RunsAsBlock.run ⟨himage, hregs, hindex, by simp [hs, ht]⟩ n hrunning
  exact ⟨hrun.regs, hrun.index, hrun.unmarked⟩

end Sys2Proof.Machine

namespace Sys2Proof.Machine

/-! ## The datapath (R107, R156, R181; D11) -/

/-- The low half of the extended immediate is the immediate (R66). -/
theorem setWidth_sext32 (imm : Imm16) : (sext32 imm).setWidth 16 = imm := by
  refine BitVec.eq_of_getLsbD_eq fun k hk => ?_
  rw [BitVec.getLsbD_setWidth, getLsbD_sext32 imm (by omega)]
  simp [hk]

theorem decoderUnit_of_ne_zero (junk : DecoderOut) {w : Word} (hw : w ≠ 0#32) :
    decoderUnit junk w =
      ⟨classify w, rsOf w, rtOf w, rdOf w, shamtOf w, sext32 (imm16Of w), classify w == .illegal⟩ :=
  if_neg hw

/-- The decoder's `illegal` output is the class's, for the zero word too (R102, R107). -/
theorem decoderUnit_illegal (junk : DecoderOut) (w : Word) :
    (decoderUnit junk w).illegal = (classify w == .illegal) := by
  by_cases hw : w = 0#32
  · subst hw
    rfl
  · rw [decoderUnit_of_ne_zero junk hw]

/-- On the decoder's outputs, unspecified ones included, the ALU answers the write and the delta of the decoded
instruction (R106, R145). -/
theorem aluUnit_of_decode (junk : DecoderOut) {w : Word} {i : Instr} (hd : decode w = .ok i) (s : State) :
    ∃ delta : Imm16,
      aluUnit (decoderUnit junk w) (s.readReg (decoderUnit junk w).rs) (s.readReg (decoderUnit junk w).rt) =
        ⟨writeOf s i, delta⟩ ∧ delta.toInt = deltaOf s i := by
  by_cases hw : w = 0#32
  · cases (decode_eq_nop_iff.mpr hw).symm.trans hd
    subst hw
    exact ⟨0, rfl, rfl⟩
  rw [decoderUnit_of_ne_zero junk hw]
  cases hc : classify w with
  | nop => exact absurd (classify_eq_nop_iff.mp hc) hw
  | add | sll | srl | addi | andi =>
    rw [decode, hc] at hd
    cases hd
    exact ⟨0, rfl, rfl⟩
  | beq =>
    cases (decode_of_beq hc).symm.trans hd
    refine ⟨_, rfl, ?_⟩
    rw [deltaOf_beq, setWidth_sext32, apply_ite BitVec.toInt]
    rfl
  | bne =>
    cases (decode_of_bne hc).symm.trans hd
    refine ⟨_, rfl, ?_⟩
    rw [deltaOf_bne, setWidth_sext32, apply_ite BitVec.toInt]
    rfl
  | illegal => exact absurd hc (decode_isOk_iff.mp ⟨i, hd⟩)

section Cycle
variable (cfg : Config) (junk : DecoderOut) {s : State} {w : Word} {i : Instr}

theorem cycleOn_of_illegal (hc : classify w = .illegal) :
    cycleOn cfg junk w s = s.latchFault (.illegalWord s.index w) := by
  simp [cycleOn, decoderUnit_illegal, hc]

theorem cycleOn_of_decode (hd : decode w = .ok i) :
    cycleOn cfg junk w s = (s.applyWrite (writeOf s i)).advance (deltaOf s i) := by
  obtain ⟨delta, halu, hdelta⟩ := aluUnit_of_decode junk hd s
  have hlegal : classify w ≠ .illegal := decode_isOk_iff.mp ⟨i, hd⟩
  simp [cycleOn, decoderUnit_illegal, hlegal, halu, pcUnit, hdelta, State.advance]

theorem cycle_of_marked (hm : s.faultMark ≠ none) : cycle cfg junk false s = s := by
  simp [cycle, Option.isSome_iff_ne_none, hm]

theorem cycle_of_no_fetch (hf : s.fetch = none) : cycle cfg junk false s = s := by
  have hstopped : ¬ s.Running := by
    have hterminal := fetch_eq_none_iff_terminal.mp hf
    omega
  simp [cycle, pcUnit, hstopped]

theorem cycle_of_fetch (hm : s.faultMark = none) (hf : s.fetch = some w) :
    cycle cfg junk false s = cycleOn cfg junk w s := by
  obtain ⟨_, hw⟩ := List.getElem?_eq_some_iff.mp (fetch_eq_some_iff.mp hf).2
  simp [cycle, pcUnit, hm, running_of_fetch hf, hw]

/-- One cycle without reset is one clock: both hold the state, or latch the illegal word, or run the instruction. -/
theorem cycle_eq_tick (s : State) : cycle cfg junk false s = tick s := by
  obtain ⟨e, hm | hf⟩ | ⟨w, hm, hf, hc, e⟩ | ⟨w, i, hm, hf, hd, e⟩ := tick_cases s
  · rw [e, cycle_of_marked cfg junk hm]
  · rw [e, cycle_of_no_fetch cfg junk hf]
  · rw [e, cycle_of_fetch cfg junk hm hf, cycleOn_of_illegal cfg junk hc]
  · rw [e, cycle_of_fetch cfg junk hm hf, cycleOn_of_decode cfg junk hd]

theorem iterate_cycle_eq_run (n : Nat) (s : State) : (cycle cfg junk false)^[n] s = run n s := by
  induction n generalizing s with
  | zero => rfl
  | succ n ih => rw [Function.iterate_succ_apply, ih, cycle_eq_tick, run_succ]

end Cycle

/-- Settles O45: a cycle with reset is the reset input by definition, one without is a clock, and so are n cycles. -/
theorem datapathIsTheMachine : Obligations.DatapathIsTheMachine := fun cfg junk s =>
  ⟨rfl, cycle_eq_tick cfg junk s, fun n => iterate_cycle_eq_run cfg junk n s⟩

end Sys2Proof.Machine

namespace Sys2Proof.Machine

/-! ## No instruction raises, and the outcomes of a run (R160, R166, R167, R169) -/

/-- Settles O27: every instruction ends in its one write and its move of the cursor, and neither touches the mark. -/
theorem noInstructionRaises : Obligations.NoInstructionRaises :=
  fun i s => ⟨_, exec_next_iff.mpr rfl, by rw [advance_faultMark, applyWrite_faultMark]⟩

/-- Every word fetched from a legal image is an instruction (R166). -/
theorem exists_decode_of_fetch {s : State} {w : Word} (hlegal : LegalImage s.image) (hf : s.fetch = some w) :
    ∃ i, decode w = .ok i :=
  decode_isOk_iff.mpr (classify_ne_illegal_of_fetch hlegal hf)

/-- A running, unmarked state with a legal image is not stuck (R166). -/
theorem exists_step_of_running {s : State} (hm : s.faultMark = none) (hlegal : LegalImage s.image) (hr : s.Running) :
    ∃ t, step s = .next t := by
  obtain ⟨w, hf⟩ := exists_fetch_of_running hr
  obtain ⟨i, hd⟩ := exists_decode_of_fetch hlegal hf
  exact ⟨_, (step_of_decode hm hf hd).trans (exec_next_iff.mpr rfl)⟩

/-- A clock sets the mark only for an illegal word, and a legal image has none to fetch (R166). -/
theorem faultMark_tick_of_legalImage {s : State} (hm : s.faultMark = none) (hlegal : LegalImage s.image) :
    (tick s).faultMark = none := by
  obtain ⟨e, -⟩ | ⟨w, -, hf, hc, -⟩ | ⟨w, i, -, -, -, e⟩ := tick_cases s
  · rwa [e]
  · exact absurd hc (classify_ne_illegal_of_fetch hlegal hf)
  · rwa [e, advance_faultMark, applyWrite_faultMark]

theorem neverFaults_of_legalImage {s : State} (hm : s.faultMark = none) (hlegal : LegalImage s.image) :
    NeverFaults s := by
  intro k
  induction k with
  | zero => exact hm
  | succ k ih =>
    rw [run_succ_tick]
    exact faultMark_tick_of_legalImage ih (run_image k s ▸ hlegal)

/-- Settles O42: the image stays legal, so no clock sets the mark, and an unmarked running state has a step. -/
theorem legalImagesNeverFault : Obligations.LegalImagesNeverFault := by
  intro s hm hlegal
  have hsafe := neverFaults_of_legalImage hm hlegal
  exact ⟨hsafe, fun k => exists_step_of_running (hsafe k) (run_image k s ▸ hlegal)⟩

/-- A clock latches a fault or runs an instruction in a running state only; every other state holds (R156). -/
theorem tick_of_not_running {s : State} (h : status s ≠ .running) : tick s = s := by
  obtain ⟨e, -⟩ | ⟨w, hm, hf, -, -⟩ | ⟨w, i, hm, hf, -, -⟩ := tick_cases s
  · exact e
  · exact absurd (status_eq_running_iff.mpr ⟨hm, running_of_fetch hf⟩) h
  · exact absurd (status_eq_running_iff.mpr ⟨hm, running_of_fetch hf⟩) h

/-- Once a run has stopped it stands in that state (R156, R166). -/
theorem run_eq_of_stopped {s : State} {k n : Nat} (h : status (run k s) ≠ .running) (hkn : k ≤ n) :
    run n s = run k s := by
  obtain ⟨d, rfl⟩ := Nat.exists_eq_add_of_le hkn
  rw [run_add, run_of_tick_eq (tick_of_not_running h)]

/-- Settles O43: a run that is not running at every clock has a clock at which it stands finished or faulted, and holds
that state from then on; of two such clocks, the later one holds the state of the earlier. -/
theorem runHasOneOfThreeOutcomes : Obligations.RunHasOneOfThreeOutcomes := by
  intro s
  refine ⟨?_, fun j k hj hk => ?_⟩
  · by_cases hever : ∀ n, status (run n s) = .running
    · exact .inr (.inr hever)
    · obtain ⟨k, hk⟩ := not_forall.mp hever
      have hold (n : Nat) (hn : k ≤ n) : run n s = run k s := run_eq_of_stopped hk hn
      cases hstatus : status (run k s) with
      | running => exact absurd hstatus hk
      | finished => exact .inl ⟨k, fun n hn => ⟨hold n hn, hold n hn ▸ hstatus⟩⟩
      | faulted f => exact .inr (.inl ⟨k, f, fun n hn => ⟨hold n hn, hold n hn ▸ hstatus⟩⟩)
  · obtain hjk | hkj := Nat.le_total j k
    · exact (run_eq_of_stopped hj hjk).symm
    · exact run_eq_of_stopped hk hkj

end Sys2Proof.Machine

namespace Sys2Proof.Machine

/-! ## The first fetch after launch (R153, R182) -/

/-- A launch state has its cursor at 0, so it fetches the image's first word, if there is one (R182). -/
theorem fetch_load (image : List Word) : (State.load image).fetch = image[0]? :=
  fetch_of_index_nonneg (Int.le_refl 0)

/-- Settles O4: the first word of a non-empty image stands at the cursor; the empty image has none, so its launch state
is terminal, has no step, and is held by every clock. -/
theorem firstFetchIsWordZero : Obligations.FirstFetchIsWordZero := by
  have hunmarked : (State.load []).faultMark = none := load_faultMark []
  have hempty : (State.load []).fetch = none := fetch_load []
  exact ⟨fun w ws => fetch_load (w :: ws), fetch_eq_none_iff_terminal.mp hempty, step_of_no_fetch hunmarked hempty,
    run_of_tick_eq (tick_of_no_fetch hunmarked hempty)⟩

end Sys2Proof.Machine

namespace Sys2Proof

/-! ## Bits the decoder ignores (R71, R105; D5) -/

/-- Words that agree under a mask agree in every field the mask keeps whole. -/
theorem extractLsb'_congr_of_and {w w' mask : Word} (h : w &&& mask = w' &&& mask) {start len : Nat}
    (hkept : mask.extractLsb' start len = BitVec.allOnes len) : w'.extractLsb' start len = w.extractLsb' start len := by
  have hfield := congrArg (BitVec.extractLsb' start len) h
  rw [BitVec.extractLsb'_and, BitVec.extractLsb'_and, hkept, BitVec.and_allOnes, BitVec.and_allOnes] at hfield
  exact hfield.symm

/-- Non-zero words with the same opcode and funct are of the same class (R102). -/
theorem classify_congr {w w' : Word} (hw : w ≠ 0#32) (hw' : w' ≠ 0#32) (hopcode : opcodeOf w' = opcodeOf w)
    (hfunct : functOf w' = functOf w) : classify w' = classify w := by
  rw [classify, classify, if_neg hw, if_neg hw', hopcode, hfunct]

/-- The `shamt` bits of an `add` have no effect. -/
theorem decode_congr_of_add {w w' : Word} (h : w &&& 0xFFFFF83F#32 = w' &&& 0xFFFFF83F#32)
    (hc : classify w = .add) : decode w' = decode w := by
  have hopcode : opcodeOf w' = opcodeOf w := extractLsb'_congr_of_and h (by decide)
  have hfunct : functOf w' = functOf w := extractLsb'_congr_of_and h (by decide)
  have hrs : rsOf w' = rsOf w := congrArg BitVec.toFin (extractLsb'_congr_of_and h (by decide))
  have hrt : rtOf w' = rtOf w := congrArg BitVec.toFin (extractLsb'_congr_of_and h (by decide))
  have hrd : rdOf w' = rdOf w := congrArg BitVec.toFin (extractLsb'_congr_of_and h (by decide))
  obtain ⟨-, hadd⟩ := (and_functMask_eq_iff 0x20#6).mp (mask_of_classify hc (by decide))
  have hc' : classify w' = .add :=
    (classify_congr (ne_zero_of_functOf hadd (by decide)) (ne_zero_of_functOf (hfunct.trans hadd) (by decide))
      hopcode hfunct).trans hc
  rw [decode_of_add hc, decode_of_add hc', hrs, hrt, hrd]

/-- The `rs` bits of a `sll` or `srl` have no effect, but that they tell the zero word, a `nop`, from `sll`. -/
theorem decode_congr_of_shift {w w' : Word} (h : w &&& 0xFC1FFFFF#32 = w' &&& 0xFC1FFFFF#32) (hw' : w' ≠ 0#32)
    (hc : classify w = .sll ∨ classify w = .srl) : decode w' = decode w := by
  have hopcode : opcodeOf w' = opcodeOf w := extractLsb'_congr_of_and h (by decide)
  have hfunct : functOf w' = functOf w := extractLsb'_congr_of_and h (by decide)
  have hrt : rtOf w' = rtOf w := congrArg BitVec.toFin (extractLsb'_congr_of_and h (by decide))
  have hrd : rdOf w' = rdOf w := congrArg BitVec.toFin (extractLsb'_congr_of_and h (by decide))
  have hshamt : shamtOf w' = shamtOf w := congrArg BitVec.toFin (extractLsb'_congr_of_and h (by decide))
  have hw : w ≠ 0#32 := by
    rintro rfl
    exact absurd hc (by decide)
  have hclass : classify w' = classify w := classify_congr hw hw' hopcode hfunct
  obtain hc | hc := hc
  · rw [decode_of_sll hc, decode_of_sll (hclass.trans hc), hrt, hrd, hshamt]
  · rw [decode_of_srl hc, decode_of_srl (hclass.trans hc), hrt, hrd, hshamt]

/-- Settles O10: the bits outside the ignored field give the class and every operand of it. -/
theorem ignoredBitsHaveNoEffect : Obligations.IgnoredBitsHaveNoEffect :=
  ⟨fun _ _ => decode_congr_of_add, fun _ _ => decode_congr_of_shift⟩

/-! ## Unassigned encodings (R68, R69, R72; D4) -/

/-- A word is illegal for its funct under opcode 0, or for its opcode alone. The zero word is neither (R102). -/
theorem classify_eq_illegal_iff {w : Word} :
    classify w = .illegal ↔
      (opcodeOf w = 0x00#6 ∧ functOf w ≠ 0x00#6 ∧ functOf w ≠ 0x02#6 ∧ functOf w ≠ 0x20#6) ∨
      (opcodeOf w ≠ 0x00#6 ∧ opcodeOf w ≠ 0x04#6 ∧ opcodeOf w ≠ 0x05#6 ∧ opcodeOf w ≠ 0x08#6 ∧
        opcodeOf w ≠ 0x0C#6) := by
  by_cases hw : w = 0#32
  · subst hw
    decide
  · rw [classify, if_neg hw]
    split_ifs <;> simp [*]

/-- The decoder rejects a word by the one name it has for it. -/
theorem decode_eq_error_iff {w : Word} {e : DecodeError} :
    decode w = .error e ↔ classify w = .illegal ∧ rejection w = e := by
  rw [decode]
  cases classify w <;> simp

theorem isLegal_eq_false_iff {w : Word} : isLegal w = false ↔ classify w = .illegal := by
  simp [isLegal]

theorem rejection_eq_unassignedOpcode_iff {w : Word} :
    rejection w = .unassignedOpcode (opcodeOf w) ↔ opcodeOf w ≠ 0x00#6 := by
  rw [rejection]
  split_ifs with h <;> simp [h]

theorem rejection_eq_unassignedFunct_iff {w : Word} :
    rejection w = .unassignedFunct (functOf w) ↔ opcodeOf w = 0x00#6 := by
  rw [rejection]
  split_ifs with h <;> simp [h]

/-- Settles O11: the two ways of being illegal are told apart by opcode 0, and so are the two names. -/
theorem unassignedEncodingsAreRejected : Obligations.UnassignedEncodingsAreRejected := by
  intro w
  refine ⟨?_, ?_, ?_⟩
  · rw [decode_eq_error_iff, classify_eq_illegal_iff, rejection_eq_unassignedOpcode_iff]
    tauto
  · rw [decode_eq_error_iff, classify_eq_illegal_iff, rejection_eq_unassignedFunct_iff]
    tauto
  · rw [decode_error_iff, isLegal_eq_false_iff]

/-! ## Registers (R78, R89; D15) -/

/-- Each of the 32 names is read back as its own register: the table has no name twice. -/
theorem readRegister_registerName : ∀ r : RegIdx, Machine.readRegister (Machine.registerName r) = .ok r := by decide

/-- A register index put at a bit position is read back by the shift and the five-bit mask (R89). -/
theorem shiftLeft_shiftRight_and_31 (r : RegIdx) (k : Nat) : ((r.val <<< k) >>> k) &&& 31 = r.val := by
  rw [Nat.shiftLeft_shiftRight, Nat.and_two_pow_sub_one_eq_mod r.val 5]
  exact Nat.mod_eq_of_lt r.isLt

/-- Settles O16: the name table read back, and each field of the layout that packs an `add`. -/
theorem registerRoundTrip : Obligations.RegisterRoundTrip := by
  have hf : (0x20#32).toNat < 64 := by decide
  exact fun r => ⟨readRegister_registerName r,
    fun a b => ⟨rsOf_packR r b a 0 hf, rtOf_packR b r a 0 hf, rdOf_packR a b r 0 hf⟩,
    shiftLeft_shiftRight_and_31 r 21, shiftLeft_shiftRight_and_31 r 16, shiftLeft_shiftRight_and_31 r 11⟩

/-! ## The word placed from an opcode-table row (log 12, log 21) -/

theorem decodeTableWord_eq_some_iff {nbits w : Nat} {i : Instr} :
    decodeTableWord nbits w = some i ↔ decode (tableWord nbits w) = .ok i := by
  rw [decodeTableWord]
  cases decode (tableWord nbits w) <;> simp

end Sys2Proof

namespace Sys2Proof.Machine

/-! ## Illegal words (R166; D4) -/

/-- Settles O31: the clock latches the fault, which touches the mark only, and a marked state is held. -/
theorem illegalWordFaultsAndHolds : Obligations.IllegalWordFaultsAndHolds := by
  intro s w hm hlo hw hillegal
  have hf : s.fetch = some w := fetch_eq_some_iff.mpr ⟨hlo, hw⟩
  have hc : classify w = .illegal := isLegal_eq_false_iff.mp hillegal
  have hstep : step s = .fault (.illegalWord s.index w) := step_of_illegal hm hf hc
  have htick : tick s = s.latchFault (.illegalWord s.index w) := tick_of_fault hstep
  have hmark : (tick s).faultMark = some (.illegalWord s.index w) := by rw [htick, latchFault_faultMark]
  have hhold (k : Nat) : run (k + 1) s = tick s := run_of_tick_eq (tick_of_marked hmark) k
  refine ⟨hstep, fun q => ?_, ?_, tick_image s, hmark, ?_, fun k => ⟨hhold k, ?_⟩⟩
  · rw [htick, readReg_latchFault]
  · rw [htick, latchFault_index]
  · rw [htick]
    exact running_of_fetch hf
  · rw [hhold]
    exact step_of_marked hmark

/-! ## Launch and the cursor of a run (R24, R181, R183) -/

/-- Settles O2: the reset input takes every field but the image from the reset state, as the launch does. -/
theorem resetInputStartsAFreshRun : Obligations.ResetInputStartsAFreshRun :=
  fun s => ⟨readReg_reset, resetInput_index s, resetInput_faultMark s, resetInput_image s, rfl⟩

theorem invariant_load (image : List Word) : Invariant (State.load image) := by
  refine ⟨?_, faultMarkTrue_of_unmarked (load_faultMark image)⟩
  rw [CursorBounded, load_index, load_image]
  omega

/-- Settles O3: a launch state has its cursor at 0 and no mark; the reset state launches the empty image (log 11). -/
theorem launchMeetsInvariant : Obligations.LaunchMeetsInvariant :=
  ⟨invariant_load [], invariant_load⟩

theorem invariant_run {s : State} (hs : Invariant s) (k : Nat) : Invariant (run k s) := by
  induction k with
  | zero => exact hs
  | succ k ih =>
    rw [run_succ_tick]
    exact (stepKeepsInvariant _ ih).2

/-- A cursor in R24's range of an image within capacity fits a cursor register of sufficient width (R7, D6). -/
theorem toInt_ofInt_index {cfg : Config} {s : State} (hwidth : cfg.IndexWidthSuffices)
    (hcapacity : WithinCapacity cfg s.image) (hs : CursorBounded s) :
    (BitVec.ofInt cfg.indexWidth s.index).toInt = s.index := by
  obtain ⟨hlo, hhi⟩ := hs
  have hpos : 0 < cfg.indexWidth := by
    by_contra hzero
    have h0 : cfg.indexWidth = 0 := by omega
    simp [Config.IndexWidthSuffices, h0] at hwidth
  have hpow : (cfg.progCapacity : Int) + 32767 < 2 ^ (cfg.indexWidth - 1) := by exact_mod_cast hwidth
  exact BitVec.toInt_ofInt_eq_self hpos (by omega) (by omega)

/-- Settles O41: a run from launch keeps the invariant, which bounds its cursor by the image it started with. -/
theorem cursorNeverWraps : Obligations.CursorNeverWraps := by
  intro cfg image k hwidth hcapacity
  obtain ⟨hcursor, -⟩ := invariant_run (invariant_load image) k
  exact toInt_ofInt_index hwidth (by rwa [run_image, load_image]) hcursor

/-- Settles O39: the placed word is fetched, the mark is clear, and the registers are not touched. -/
theorem placedWordRunsNext : Obligations.PlacedWordRunsNext :=
  fun s _ _ _ hd => ⟨step_of_decode rfl (fetch_placeAtFetch s _) (decodeTableWord_eq_some_iff.mp hd), rfl⟩

/-! ## Addresses modulo 2^32 (R25, R88; D9, D19) -/

theorem toNat_add_ofInt (base : Word) (z : Int) :
    ((base + BitVec.ofInt 32 z).toNat : Int) = (base.toNat + z) % 2 ^ 32 := by
  have hz : ((BitVec.ofInt 32 z).toNat : Int) = z % 2 ^ 32 := by
    rw [BitVec.toNat_ofInt]
    exact Int.toNat_of_nonneg (Int.emod_nonneg _ (by decide))
  calc ((base + BitVec.ofInt 32 z).toNat : Int)
    _ = (base.toNat + (BitVec.ofInt 32 z).toNat) % 2 ^ 32 := congrArg Nat.cast (BitVec.toNat_add base _)
    _ = (base.toNat + z) % 2 ^ 32 := by rw [hz, Int.add_emod_emod]

/-- Settles O37: the derived pc is the base address plus a signed number, modulo 2^32. -/
theorem pcIsDerivedFromTheCursor : Obligations.PcIsDerivedFromTheCursor :=
  fun cfg s => toNat_add_ofInt cfg.baseAddress (4 * s.index)

theorem getElem?_listing (cfg : Config) (words : List Word) (k : Nat) :
    (listing cfg words)[k]? = words[k]?.map fun w => (cfg.baseAddress + BitVec.ofNat 32 (4 * k), w) := by
  simp [listing, Function.comp_def]

/-- Settles O53: the k-th entry of the listing is the k-th word with its address. -/
theorem listingGivesAddressAndWord : Obligations.ListingGivesAddressAndWord := by
  refine fun cfg words => ⟨by simp [listing], fun k w hw => ⟨_, ?_, toNat_add_ofInt cfg.baseAddress (4 * k)⟩⟩
  have haddress : BitVec.ofInt 32 (4 * (k : Int)) = BitVec.ofNat 32 (4 * k) := by
    exact_mod_cast BitVec.ofInt_natCast 32 (4 * k)
  rw [getElem?_listing, hw, haddress, Option.map_some]

end Sys2Proof.Machine
